-- ==== Sys2Proof/Word.lean ====
section
/-! DEFINITION. The word types of the block and the plain bit-level views of them (00_scope.md R10, R11). -/

namespace Sys2Proof

/-- One byte of a command word or of the output buffer (20_memory.md R54). -/
abbrev Byte := BitVec 8

/-- A 32-bit command, operand, parameter or response word (00_scope.md R10). -/
abbrev Word := BitVec 32

/-- A binary32 value, held as its IEEE 754 bit pattern (00_scope.md R10, R12). -/
abbrev F32 := BitVec 32

end Sys2Proof
end

