-- ==== Sys2Proof/Machine/Voice.lean ====
section
/-! DEFINITION. The registers of one voice instance (10_state.md R22 to R28), grouped as the spec
groups them. Everything here is plain data. -/

namespace Sys2Proof.Machine

/-- `ENV_STAGE` (10_state.md R26). -/
inductive EnvStage where
  | idle | attack | decay | sustain | release
  deriving DecidableEq, Repr, Inhabited

/-- `OSC_SHAPE` (10_state.md R27). -/
inductive Shape where
  | saw | rect | tri
  deriving DecidableEq, Repr, Inhabited

/-- The voice registers of 10_state.md R23, each a binary32. -/
structure NoteRegs where
  baseNote : F32
  velAmp : F32
  cutOfs : F32
  resQ : F32
  ampDepth : F32
  ampRev : F32
  pitchDepth : F32
  cutDepth : F32
  pwmDepth : F32
  deriving DecidableEq, Repr, Inhabited

/-- The envelope registers of 10_state.md R26. `n` is the 32-bit counter `ENV_N`. -/
structure EnvRegs where
  stage : EnvStage
  level : F32
  l0 : F32
  n : Word
  attInc : F32
  decInc : F32
  relInc : F32
  susLevel : F32
  deriving DecidableEq, Repr, Inhabited

/-- The oscillator registers of 10_state.md R27. -/
structure OscRegs where
  phase : F32
  shape : Shape
  pw : F32
  deriving DecidableEq, Repr, Inhabited

/-- The filter registers of 10_state.md R28. -/
structure FltRegs where
  a0 : F32
  a1 : F32
  a2 : F32
  b1 : F32
  b2 : F32
  z1 : F32
  z2 : F32
  deriving DecidableEq, Repr, Inhabited

/-- Every register of the block but `LIFE`, `RESP` and `FAULT`: the parameter file `P[0..23]` (R22), the voice
registers (R23), the gate counter `GATE` (R24), the latch `RETRIG` (R25), and the envelope, oscillator and filter
registers (R26 to R28). These are the registers that `INIT` loads and `TEARDOWN` leaves unwritten. -/
structure Voice where
  p : Vector Word 24
  note : NoteRegs
  gate : Word
  retrig : Bool
  env : EnvRegs
  osc : OscRegs
  flt : FltRegs
  deriving DecidableEq, Repr, Inhabited

/-- Every voice register at zero, the envelope `IDLE` and the shape `SAW`.
DESIGN CHOICE, log 3, unsafe: the spec gives these registers no value before `INIT` (R35, R281). -/
def Voice.zero : Voice where
  p := Vector.replicate 24 0
  note := ⟨0, 0, 0, 0, 0, 0, 0, 0, 0⟩
  gate := 0
  retrig := false
  env := ⟨.idle, 0, 0, 0, 0, 0, 0, 0⟩
  osc := ⟨0, .saw, 0⟩
  flt := ⟨0, 0, 0, 0, 0, 0, 0⟩

end Sys2Proof.Machine
end

