-- ==== Sys2Proof/Config.lean ====
section
/-! DEFINITION. What an implementation fixes (00_scope.md R9) and the free values of the model. -/

namespace Sys2Proof

/-- Which `EXP2` and `TAN` the instance has (00_scope.md R9, R13; 93_implementation_defined.md U18). -/
inductive MathUnit where
  /-- the default of R9: the correctly rounded binary32 functions -/
  | correctlyRounded
  /-- an implementation's own functions, about which nothing is known -/
  | implementation
  deriving DecidableEq, Repr

/-- The model arguments of 00_scope.md R9, fixed for the life of the model. State holds one as plain data that no
step writes, so that a statement about every state holds for every value of them (log 1). -/
structure Config where
  /-- `EXP2` and `TAN` -/
  math : MathUnit
  /-- `CFG_ALL_NOTE_OFF_CLEARS` (44_gate.md R194) -/
  allNoteOffClears : Bool
  /-- `CFG_RESET_CLEARS_VOICE` (45_render.md R214) -/
  resetClearsVoice : Bool
  /-- `OUT_CAP_FRAMES`, the capacity of the output buffer in frames (20_memory.md R52) -/
  outCapFrames : Nat
  deriving DecidableEq, Repr

/-- The defaults of 00_scope.md R9. The capacity has none there.
DESIGN CHOICE for the capacity alone, log 2, unsafe: 48000 frames, the least that every program of
95_test_vectors.md fits. -/
def Config.default : Config where
  math := .correctlyRounded
  allNoteOffClears := false
  resetClearsVoice := false
  outCapFrames := 48000

/-- The binary32 operations whose NaN results have open bits. -/
inductive FloatOp where
  | add | sub | mul | div | exp2 | tan
  deriving DecidableEq, Repr

/-- FREE VALUE (log 1): the `EXP2` of an implementation that does not take the default (R9, R13). -/
opaque Config.exp2 : F32 → F32

/-- FREE VALUE (log 1): the `TAN` of an implementation that does not take the default (R9, R13). -/
opaque Config.tan : F32 → F32

/-- FREE VALUE (log 8): the sign and payload bits of a NaN result, which IEEE 754 leaves open. -/
opaque Config.nanBits : FloatOp → F32 → F32 → Word

/-- FREE VALUE (log 4): what the registers hold after the `n`-th `TEARDOWN` that released an instance, when the
spec calls them unwritten (46_lifecycle_host.md R235). -/
opaque Config.unwritten : Nat → Machine.Voice

end Sys2Proof
end

