-- ==== Sys2Proof/Machine/State.lean ====
section
/-! DEFINITION. The state of the block (10_state.md), plain data throughout, and the state at creation. -/

namespace Sys2Proof.Machine

/-- `LIFE` (10_state.md R21). -/
inductive Life where
  | uninit | ready | failed
  deriving DecidableEq, Repr

/-- The fault codes of 60_exceptions.md R260. -/
inductive FaultCode where
  /-- `F_NOT_READY` (R261) -/
  | notReady
  /-- `F_PARAM_INDEX` (R262) -/
  | paramIndex
  /-- `F_BUFFER` (R263) -/
  | buffer
  /-- `F_ILLEGAL` (R264) -/
  | illegal
  /-- `F_DOMAIN` (R265) -/
  | domain
  /-- `F_REINIT` (R266) -/
  | reinit
  deriving DecidableEq, Repr

/-- A fault record: the code and the first word `W0` of the faulting command (10_state.md R33). -/
structure FaultRecord where
  code : FaultCode
  word : Word
  deriving DecidableEq, Repr

/-- A memory: address and byte pairs, addresses strictly rising. An unlisted address has no value (log 7). -/
abbrev Memory := List Host.Cell

/-- The state of one instance of the block, with the commands the host has delivered to it. -/
structure State where
  /-- `LIFE` (R21) -/
  life : Life
  /-- `RESP`, a 32-bit two's complement word (R32) -/
  resp : Word
  /-- `FAULT`, `none` for `NONE` (R33) -/
  fault : Option FaultRecord
  /-- every other register (R22 to R28) -/
  voice : Voice
  /-- `OUT`, byte by byte: word `j` at byte offsets `4j .. 4j+3` (20_memory.md R51, R54) -/
  out : Memory
  /-- the model arguments, which no step writes (00_scope.md R9, log 1) -/
  cfg : Config
  /-- the bytes of the commands the host has delivered and the block has not executed (R55, log 5) -/
  stream : List Byte
  /-- MODEL FIELD: which free register file the next `TEARDOWN` leaves (log 4) -/
  epoch : Nat
  deriving DecidableEq, Repr

/-- Why the machine stops. -/
inductive Fault where
  /-- Raised by every step and every command while `FAULT` holds a record: the block is quiescent and has no further
  step (60_exceptions.md R260, R268; 93_implementation_defined.md U28). Safe: the machine stops where the spec says it
  stops. -/
  | stopped (r : FaultRecord)
  deriving DecidableEq, Repr

/-- Why a command has no meaning. -/
inductive Refusal where
  /-- A command the model gives no meaning; raised by no arm of `exec`. Safe. -/
  | notModelled (mnemonic : String)
  deriving DecidableEq, Repr

/-- The state at creation (10_state.md R35, 70_reset_and_hazards.md R280): `LIFE = UNINIT`, `FAULT = NONE`, `RESP = 0`.
The spec leaves every other register unwritten; the values here are DESIGN CHOICE, log 3 (registers), log 2
(capacity), log 4 (`epoch`), log 5 (`stream`), log 7 (`OUT`). -/
def State.reset : State where
  life := .uninit
  resp := 0
  fault := none
  voice := Voice.zero
  out := []
  cfg := Config.default
  stream := []
  epoch := 0

end Sys2Proof.Machine
end

