-- ==== Sys2Proof/Machine/Flags.lean ====
section
/-! DEFINITION. The block has no condition codes and no status flags (10_state.md R31). What a frame derives from the
gate (R29) and the saturating counter itself (R24) stand here. -/

namespace Sys2Proof.Machine

/-- `trig = (GATE > 0)` (10_state.md R29). -/
def trigger (gate : Word) : Bool := decide (0 < gate.toNat)

/-- `tf = trig ? 1.0 : 0.0` (43_parameters.md R178, 45_render.md R211). -/
def triggerLevel (trig : Bool) : F32 := if trig then 0x3F800000 else 0

/-- The saturating increment of `GATE` (44_gate.md R190). -/
def gateUp (gate : Word) : Word := if gate = 0xFFFFFFFF then gate else gate + 1

/-- The decrement of `GATE`, never below 0 (44_gate.md R191). -/
def gateDown (gate : Word) : Word := if 0 < gate.toNat then gate - 1 else gate

end Sys2Proof.Machine
end

