-- ==== Sys2Proof/Machine/Float.lean ====
section
/-! DEFINITION. IEEE 754 binary32 arithmetic, round to nearest with ties to even, subnormals kept (00_scope.md R12,
R13). Every finite binary32 value is an integer multiple of `2^-149`, so each operation computes exactly on integers and
rounds once, in `roundMag`. The special cases (infinities, signed zeros, division by zero) are IEEE 754's own
(PRESUMED, log 14). -/

namespace Sys2Proof.Machine

/-- The pattern of `+∞`. -/
def infMag : Nat := 0x7F800000

/-- The sign bit. -/
def fSign (x : F32) : Bool := x.msb

/-- The biased exponent field. -/
def fExpo (x : F32) : Nat := x.toNat / 2 ^ 23 % 256

/-- The fraction field. -/
def fFrac (x : F32) : Nat := x.toNat % 2 ^ 23

/-- `x` is a NaN. -/
def isNaN (x : F32) : Bool := fExpo x == 255 && fFrac x != 0

/-- `x` is an infinity. -/
def isInf (x : F32) : Bool := fExpo x == 255 && fFrac x == 0

/-- `x` is neither a NaN nor an infinity. -/
def isFinite (x : F32) : Bool := fExpo x != 255

/-- The magnitude of a finite `x` in units of `2^-149`. -/
def fMag (x : F32) : Nat := if fExpo x = 0 then fFrac x else (2 ^ 23 + fFrac x) * 2 ^ (fExpo x - 1)

/-- The value of a finite `x` in units of `2^-149`. -/
def fVal (x : F32) : Int := if fSign x then -(fMag x : Int) else (fMag x : Int)

/-- The integer nearest to `n / d`, the even one of two equally near. -/
def nearestEven (n d : Nat) : Nat :=
  let q := n / d
  let r := n % d
  if 2 * r < d ∨ (2 * r = d ∧ q % 2 = 0) then q else q + 1

/-- The pattern, sign bit 0, of the binary32 value nearest to `n / d` units of `2^-149`; at or above the overflow
threshold the pattern of `+∞`. Below `2^24` units the pattern is the integer itself; above, the significand is
scaled to 24 bits and a carry out of it lands in the exponent. -/
def roundMag (n d : Nat) : Nat :=
  let e := Nat.log2 (n / d) - 23
  min (2 ^ 23 * e + nearestEven n (d * 2 ^ e)) infMag

/-- A pattern from its sign bit and the rest. -/
def packF (s : Bool) (mag : Nat) : F32 := BitVec.ofNat 32 (if s then 2 ^ 31 + mag else mag)

/-- A quiet NaN, its sign and payload free (log 8). -/
def nanResult (op : FloatOp) (a b : F32) : F32 := 0x7FC00000 ||| Config.nanBits op a b

/-- Round an exact integer of `2^-149` units. `zs` is the sign of an exact zero. -/
def roundVal (zs : Bool) (v : Int) : F32 :=
  packF (if v = 0 then zs else decide (v < 0)) (roundMag v.natAbs 1)

/-- The sum of `a` and `b`, `op` naming the operation a NaN result comes from. -/
def addWith (op : FloatOp) (a b : F32) : F32 :=
  if isNaN a || isNaN b then nanResult op a b
  else if isInf a then (if isInf b && fSign a != fSign b then nanResult op a b else a)
  else if isInf b then b
  else roundVal (fSign a && fSign b) (fVal a + fVal b)

/-- `x` with its sign bit flipped. -/
def fneg (x : F32) : F32 := x ^^^ 0x80000000

/-- binary32 `a + b` (R12). -/
def fadd (a b : F32) : F32 := addWith .add a b

/-- binary32 `a - b` (R12). -/
def fsub (a b : F32) : F32 := addWith .sub a (fneg b)

/-- binary32 `a * b` (R12). -/
def fmul (a b : F32) : F32 :=
  let s := fSign a != fSign b
  if isNaN a || isNaN b then nanResult .mul a b
  else if isInf a || isInf b then
    (if fMag a = 0 || fMag b = 0 then nanResult .mul a b else packF s infMag)
  else packF s (roundMag (fMag a * fMag b) (2 ^ 149))

/-- binary32 `a / b` (R12). -/
def fdiv (a b : F32) : F32 :=
  let s := fSign a != fSign b
  if isNaN a || isNaN b then nanResult .div a b
  else if isInf a then (if isInf b then nanResult .div a b else packF s infMag)
  else if isInf b then packF s 0
  else if fMag b = 0 then (if fMag a = 0 then nanResult .div a b else packF s infMag)
  else packF s (roundMag (2 ^ 149 * fMag a) (fMag b))

/-- `f32(i)`: the binary32 value nearest to an integer (R12). -/
def f32OfInt (i : Int) : F32 := packF (decide (i < 0)) (roundMag (2 ^ 149 * i.natAbs) 1)

/-- The order of the values of patterns that are no NaN: `±0` at 0, `+∞` above and `-∞` below every other. -/
def fKey (x : F32) : Int :=
  if fSign x then -((x.toNat % 2 ^ 31 : Nat) : Int) else ((x.toNat % 2 ^ 31 : Nat) : Int)

/-- IEEE `a < b`, false for a NaN (R13). -/
def flt (a b : F32) : Bool := !isNaN a && !isNaN b && decide (fKey a < fKey b)

/-- IEEE `a <= b`, false for a NaN (R13). -/
def fle (a b : F32) : Bool := !isNaN a && !isNaN b && decide (fKey a ≤ fKey b)

/-- `fabs(x)`, the sign bit cleared (R13). -/
def fabs (x : F32) : F32 := x &&& 0x7FFFFFFF

/-- `fmin(a, b) = (a < b) ? a : b` (R13). -/
def fmin (a b : F32) : F32 := if flt a b then a else b

/-- `fmax(a, b) = (a > b) ? a : b` (R13). -/
def fmax (a b : F32) : F32 := if flt b a then a else b

/-- `fclamp(x, lo, hi) = fmin(fmax(x, lo), hi)` (R13). -/
def fclamp (x lo hi : F32) : F32 := fmin (fmax x lo) hi

end Sys2Proof.Machine
end

