-- ==== Sys2Proof/Machine/Operands.lean ====
section
/-! DEFINITION. The operand forms of 30_encoding.md R73 and their domain checks, the parameter table of
43_parameters.md R160, and the numeric codes of the spec's enumerations. -/

namespace Sys2Proof.Machine

/-- A parameter index `i = zext(A)`, if it names a slot (R73, 60_exceptions.md R262). -/
def paramSlot? (a : Byte) : Option (Fin 24) := if h : a.toNat < 24 then some ⟨a.toNat, h⟩ else none

/-- A note or a velocity in its documented domain 0..127 (R73, 60_exceptions.md R265). -/
def inNoteDomain (b : Byte) : Bool := decide (b.toNat ≤ 127)

/-- `clampi(v, lo, hi) = min(max(v, lo), hi)` (00_scope.md R11). -/
def clampi (v lo hi : Int) : Int := min (max v lo) hi

/-- How a host displays a parameter (R160). No rule of the block reads it. -/
inductive Display where
  | midiNote | plain | percent | milliseconds | none
  deriving DecidableEq, Repr

/-- One row of the parameter table (R160). `center` and `display` are metadata no rule reads. -/
structure ParamRow where
  min : Int
  max : Int
  center : Int
  default : Int
  display : Display
  deriving DecidableEq, Repr

/-- The parameter table of R160. -/
def paramRow (i : Fin 24) : ParamRow :=
  match i.val with
  | 0 => ⟨0, 127, 60, 60, .midiNote⟩
  | 1 => ⟨0, 2, 0, 0, .plain⟩
  | 2 => ⟨0, 127, 64, 127, .plain⟩
  | 3 => ⟨0, 100, 0, 0, .percent⟩
  | 4 => ⟨0, 4999, 0, 9, .milliseconds⟩
  | 5 => ⟨0, 4999, 0, 199, .milliseconds⟩
  | 6 => ⟨0, 99, 0, 69, .percent⟩
  | 7 => ⟨0, 4999, 0, 199, .milliseconds⟩
  | 8 => ⟨0, 100, 0, 100, .percent⟩
  | 9 => ⟨-100, 100, 0, 0, .percent⟩
  | 10 => ⟨-100, 100, 0, 0, .percent⟩
  | 11 => ⟨-100, 100, 0, 0, .percent⟩
  | _ => ⟨-(2 ^ 31), 2 ^ 31 - 1, 0, 0, .none⟩

/-- `vc = clampi(v, min_i, max_i)`, the value a parameter is derived from (R163). -/
def clampedParam (i : Fin 24) (v : Word) : Int := clampi v.toInt (paramRow i).min (paramRow i).max

/-- The default of slot `i` as the 32-bit word it is stored as (R160, R233). -/
def paramDefault (i : Fin 24) : Word := BitVec.ofInt 32 (paramRow i).default

/-- The 2-bit code of `LIFE` (10_state.md R21). -/
def lifeCode (l : Life) : BitVec 2 :=
  match l with
  | .uninit => 0
  | .ready => 1
  | .failed => 2

/-- The 3-bit code of `ENV_STAGE` (10_state.md R26). -/
def stageCode (e : EnvStage) : BitVec 3 :=
  match e with
  | .idle => 0
  | .attack => 1
  | .decay => 2
  | .sustain => 3
  | .release => 4

/-- The 2-bit code of `OSC_SHAPE` (10_state.md R27). -/
def shapeCode (o : Shape) : BitVec 2 :=
  match o with
  | .saw => 0
  | .rect => 1
  | .tri => 2

/-- The value of a fault code (60_exceptions.md R260). -/
def faultValue (c : FaultCode) : Nat :=
  match c with
  | .notReady => 1
  | .paramIndex => 2
  | .buffer => 3
  | .illegal => 4
  | .domain => 5
  | .reinit => 6

/-- `ERR_NONE` (46_lifecycle_host.md R231). -/
def errNone : Word := 0

/-- `ERR_SAMPLERATE = -4` (46_lifecycle_host.md R231). -/
def errSamplerate : Word := BitVec.ofInt 32 (-4)

/-- `ERR_GEOMETRY = -8` (46_lifecycle_host.md R231). -/
def errGeometry : Word := BitVec.ofInt 32 (-8)

end Sys2Proof.Machine
end

