-- ==== Sys2Proof/Syntax.lean ====
section
/-! DEFINITION. The commands of the block, one constructor per row of spec/opcode_table.json
(30_encoding.md R74, R75). Operands are the assembled fields of R73, before any domain check. -/

namespace Sys2Proof

/-- A command of `MXSC-1`. -/
inductive Instr where
  /-- `INIT rate, channels` (46_lifecycle_host.md R230): `ch` is field A, `rate` is W1 -/
  | init (ch : Byte) (rate : Word)
  /-- `TEARDOWN` (46_lifecycle_host.md R235) -/
  | teardown
  /-- `RESET` (45_render.md R213) -/
  | reset
  /-- `RESUME` (45_render.md R215) -/
  | resume
  /-- `SUSPEND` (45_render.md R216) -/
  | suspend
  /-- `SET_PARAM index, value` (43_parameters.md R161) -/
  | setParam (i : Byte) (v : Word)
  /-- `GET_PARAM index` (43_parameters.md R162) -/
  | getParam (i : Byte)
  /-- `GET_PARAM_STR index, value` (46_lifecycle_host.md R239) -/
  | getParamStr (i : Byte) (v : Word)
  /-- `GET_PARAM_BMP index, value` (46_lifecycle_host.md R240) -/
  | getParamBmp (i : Byte) (v : Word)
  /-- `NOTE_ON note, velocity` (44_gate.md R190) -/
  | noteOn (n : Byte) (vel : Byte)
  /-- `NOTE_OFF note` (44_gate.md R191) -/
  | noteOff (n : Byte)
  /-- `ALL_NOTE_OFF` (44_gate.md R192) -/
  | allNoteOff
  /-- `PITCH_BEND value16` (44_gate.md R195): `pb = {B, A}` -/
  | pitchBend (pb : BitVec 16)
  /-- `CHANNEL_PRESSURE value` (44_gate.md R196) -/
  | channelPressure (pr : Byte)
  /-- `AFTERTOUCH note, value` (44_gate.md R197) -/
  | aftertouch (n : Byte) (val : Byte)
  /-- `LOAD_PRESET index` (46_lifecycle_host.md R236) -/
  | loadPreset (pi : Byte)
  /-- `GET_PRESET_INDEX` (46_lifecycle_host.md R237) -/
  | getPresetIndex
  /-- `GET_PRESET_NAME index` (46_lifecycle_host.md R238) -/
  | getPresetName (pi : Byte)
  /-- `RENDER frames` (45_render.md R210) -/
  | render (nf : Word)
  deriving DecidableEq, Repr, Inhabited

end Sys2Proof
end

