-- ==== Sys2Proof/WellFormed.lean ====
section
/-! DEFINITION. The documented operand domain of each command (30_encoding.md R73, R77). An operand outside it still
encodes and decodes; the command's own rule then faults (60_exceptions.md R262, R265). -/

namespace Sys2Proof

/-- The operands lie in the domain 30_encoding.md R73 documents: a parameter index in 0..23, a note and a velocity
in 0..127. Every other operand field is used whole. -/
def Instr.wellFormed : Instr → Bool
  | .init _ _ => true
  | .teardown => true
  | .reset => true
  | .resume => true
  | .suspend => true
  | .setParam i _ => i.toNat < 24
  | .getParam i => i.toNat < 24
  | .getParamStr i _ => i.toNat < 24
  | .getParamBmp i _ => i.toNat < 24
  | .noteOn n vel => n.toNat < 128 && vel.toNat < 128
  | .noteOff n => n.toNat < 128
  | .allNoteOff => true
  | .pitchBend _ => true
  | .channelPressure _ => true
  | .aftertouch _ _ => true
  | .loadPreset _ => true
  | .getPresetIndex => true
  | .getPresetName _ => true
  | .render _ => true

end Sys2Proof
end

