-- ==== Sys2Proof/Decode.lean ====
section
/-! DEFINITION. The `MXSC-1` command encoding (30_encoding.md R70 to R78): the opcode map, a decoder that is total
on any bytes, and the encoder. -/

namespace Sys2Proof

/-- The five formats of 30_encoding.md R71. -/
inductive Format where
  | f0 | fa | fab | faw | fw
  deriving DecidableEq, Repr

/-- The opcodes of 30_encoding.md R75, in the table's order. -/
inductive Opcode where
  | init | teardown | reset | resume | suspend
  | setParam | getParam | getParamStr | getParamBmp
  | noteOn | noteOff | allNoteOff | pitchBend | channelPressure | aftertouch
  | loadPreset | getPresetIndex | getPresetName | render
  deriving DecidableEq, Repr

/-- What the decoder reads at the head of a byte stream. -/
inductive Decoded where
  /-- a whole command, and the bytes after it -/
  | command (i : Instr) (rest : List Byte)
  /-- a first word that matches no row of R75 (R76); only that word is consumed -/
  | illegal (w0 : Word) (rest : List Byte)
  /-- the host has not delivered a whole command yet -/
  | incomplete
  deriving DecidableEq, Repr

/-- The mask that selects a row: the bits of `W0` the format fixes (R71, R75). -/
def Format.mask : Format → Word
  | .f0 => 0xFFFFFFFF
  | .fa => 0xFFFF00FF
  | .fab => 0xFF0000FF
  | .faw => 0xFFFF00FF
  | .fw => 0xFFFFFFFF

/-- Whether a format has the operand word `W1` (R71, R72). -/
def Format.hasOperand : Format → Bool
  | .f0 => false
  | .fa => false
  | .fab => false
  | .faw => true
  | .fw => true

/-- The value of the field `OPC` (R75). -/
def Opcode.byte : Opcode → Byte
  | .init => 0x01
  | .teardown => 0x02
  | .reset => 0x03
  | .resume => 0x04
  | .suspend => 0x05
  | .setParam => 0x10
  | .getParam => 0x11
  | .getParamStr => 0x12
  | .getParamBmp => 0x13
  | .noteOn => 0x20
  | .noteOff => 0x21
  | .allNoteOff => 0x22
  | .pitchBend => 0x23
  | .channelPressure => 0x24
  | .aftertouch => 0x25
  | .loadPreset => 0x30
  | .getPresetIndex => 0x31
  | .getPresetName => 0x32
  | .render => 0x40

/-- The format of each opcode (R75). -/
def Opcode.format : Opcode → Format
  | .init => .faw
  | .teardown => .f0
  | .reset => .f0
  | .resume => .f0
  | .suspend => .f0
  | .setParam => .faw
  | .getParam => .fa
  | .getParamStr => .faw
  | .getParamBmp => .faw
  | .noteOn => .fab
  | .noteOff => .fa
  | .allNoteOff => .f0
  | .pitchBend => .fab
  | .channelPressure => .fa
  | .aftertouch => .fab
  | .loadPreset => .fa
  | .getPresetIndex => .f0
  | .getPresetName => .fa
  | .render => .fw

/-- Every row of the opcode map (R75). -/
def Opcode.all : List Opcode :=
  [.init, .teardown, .reset, .resume, .suspend, .setParam, .getParam, .getParamStr, .getParamBmp, .noteOn, .noteOff,
    .allNoteOff, .pitchBend, .channelPressure, .aftertouch, .loadPreset, .getPresetIndex, .getPresetName, .render]

/-- The match value of a row: the opcode in bits 7..0, every other fixed bit 0 (R75). -/
def Opcode.pattern (o : Opcode) : Word := o.byte.setWidth 32

/-- `(W0 & mask) == match` (R75). -/
def Opcode.selects (o : Opcode) (w0 : Word) : Bool := w0 &&& o.format.mask == o.pattern

/-- The row a first word selects, if any (R75, R76). -/
def Opcode.ofWord? (w0 : Word) : Option Opcode := Opcode.all.find? fun o => o.selects w0

/-- Field `A`, bits 15..8 of `W0` (R70). -/
def fieldA (w0 : Word) : Byte := w0.extractLsb' 8 8

/-- Field `B`, bits 23..16 of `W0` (R70). -/
def fieldB (w0 : Word) : Byte := w0.extractLsb' 16 8

/-- The command of a row, its operands assembled from the fields and `W1` (R73). -/
def Opcode.assemble (o : Opcode) (a b : Byte) (w1 : Word) : Instr :=
  match o with
  | .init => .init a w1
  | .teardown => .teardown
  | .reset => .reset
  | .resume => .resume
  | .suspend => .suspend
  | .setParam => .setParam a w1
  | .getParam => .getParam a
  | .getParamStr => .getParamStr a w1
  | .getParamBmp => .getParamBmp a w1
  | .noteOn => .noteOn a b
  | .noteOff => .noteOff a
  | .allNoteOff => .allNoteOff
  | .pitchBend => .pitchBend (b ++ a)
  | .channelPressure => .channelPressure a
  | .aftertouch => .aftertouch a b
  | .loadPreset => .loadPreset a
  | .getPresetIndex => .getPresetIndex
  | .getPresetName => .getPresetName a
  | .render => .render w1

/-- The next 32-bit word of a byte stream, least significant byte first (20_memory.md R54), and the bytes after
it. -/
def takeWord : List Byte → Option (Word × List Byte)
  | b0 :: b1 :: b2 :: b3 :: rest => some (b3 ++ b2 ++ b1 ++ b0, rest)
  | _ => none

/-- Read the operand word where the format has one (R72), and assemble. -/
def decodeOperand (o : Opcode) (w0 : Word) (rest : List Byte) : Decoded :=
  if o.format.hasOperand then
    match takeWord rest with
    | none => .incomplete
    | some (w1, rest') => .command (o.assemble (fieldA w0) (fieldB w0) w1) rest'
  else .command (o.assemble (fieldA w0) (fieldB w0) 0) rest

/-- The decoder: read `W0`, select its row, then read `W1` if the row has one (R72, R75, R76). -/
def decode (bs : List Byte) : Decoded :=
  match takeWord bs with
  | none => .incomplete
  | some (w0, rest) =>
    match Opcode.ofWord? w0 with
    | none => .illegal w0 rest
    | some o => decodeOperand o w0 rest

/-- The opcode of a command. -/
def Instr.opcode : Instr → Opcode
  | .init _ _ => .init
  | .teardown => .teardown
  | .reset => .reset
  | .resume => .resume
  | .suspend => .suspend
  | .setParam _ _ => .setParam
  | .getParam _ => .getParam
  | .getParamStr _ _ => .getParamStr
  | .getParamBmp _ _ => .getParamBmp
  | .noteOn _ _ => .noteOn
  | .noteOff _ => .noteOff
  | .allNoteOff => .allNoteOff
  | .pitchBend _ => .pitchBend
  | .channelPressure _ => .channelPressure
  | .aftertouch _ _ => .aftertouch
  | .loadPreset _ => .loadPreset
  | .getPresetIndex => .getPresetIndex
  | .getPresetName _ => .getPresetName
  | .render _ => .render

/-- What a command puts in field `A` (R73, R78). -/
def Instr.opA : Instr → Byte
  | .init ch _ => ch
  | .teardown => 0
  | .reset => 0
  | .resume => 0
  | .suspend => 0
  | .setParam i _ => i
  | .getParam i => i
  | .getParamStr i _ => i
  | .getParamBmp i _ => i
  | .noteOn n _ => n
  | .noteOff n => n
  | .allNoteOff => 0
  | .pitchBend pb => pb.extractLsb' 0 8
  | .channelPressure pr => pr
  | .aftertouch n _ => n
  | .loadPreset pi => pi
  | .getPresetIndex => 0
  | .getPresetName pi => pi
  | .render _ => 0

/-- What a command puts in field `B` (R73, R78). -/
def Instr.opB : Instr → Byte
  | .init _ _ => 0
  | .teardown => 0
  | .reset => 0
  | .resume => 0
  | .suspend => 0
  | .setParam _ _ => 0
  | .getParam _ => 0
  | .getParamStr _ _ => 0
  | .getParamBmp _ _ => 0
  | .noteOn _ vel => vel
  | .noteOff _ => 0
  | .allNoteOff => 0
  | .pitchBend pb => pb.extractLsb' 8 8
  | .channelPressure _ => 0
  | .aftertouch _ val => val
  | .loadPreset _ => 0
  | .getPresetIndex => 0
  | .getPresetName _ => 0
  | .render _ => 0

/-- The operand word `W1` of a command, if its format has one (R71, R73). -/
def Instr.operand? : Instr → Option Word
  | .init _ rate => some rate
  | .teardown => none
  | .reset => none
  | .resume => none
  | .suspend => none
  | .setParam _ v => some v
  | .getParam _ => none
  | .getParamStr _ v => some v
  | .getParamBmp _ v => some v
  | .noteOn _ _ => none
  | .noteOff _ => none
  | .allNoteOff => none
  | .pitchBend _ => none
  | .channelPressure _ => none
  | .aftertouch _ _ => none
  | .loadPreset _ => none
  | .getPresetIndex => none
  | .getPresetName _ => none
  | .render nf => some nf

/-- The first command word `W0 = {RSV, B, A, OPC}` of a command, with `RSV = 0` (R70, R78). -/
def Instr.word0 (i : Instr) : Word := (0 : Byte) ++ i.opB ++ i.opA ++ i.opcode.byte

/-- The bytes of a word, least significant first (20_memory.md R54). -/
def wordBytes (w : Word) : List Byte :=
  [w.extractLsb' 0 8, w.extractLsb' 8 8, w.extractLsb' 16 8, w.extractLsb' 24 8]

/-- The encoder: the words of a command as the host delivers their bytes (R70, R78, 20_memory.md R54). -/
def encode (i : Instr) : List Byte :=
  wordBytes i.word0 ++ (match i.operand? with | some w1 => wordBytes w1 | none => [])

/-- The bytes of the command whose bits are `w`: two words, or one where the row of the first has no operand. -/
def tableBytes (nbits w : Nat) : List Byte :=
  let v := w % 2 ^ nbits
  let w0 : Word := BitVec.ofNat 32 v
  match Opcode.ofWord? w0 with
  | some o =>
    if o.format.hasOperand then wordBytes w0 ++ wordBytes (BitVec.ofNat 32 (v / 2 ^ 32)) else wordBytes w0
  | none => wordBytes w0

/-- What the decoder reads from a command whose bits are `w`, numbered as spec/opcode_table.json numbers them. -/
def decodeTableWord (nbits w : Nat) : Option Instr :=
  match decode (tableBytes nbits w) with
  | .command i _ => some i
  | .illegal _ _ => none
  | .incomplete => none

end Sys2Proof
end

