-- ==== Sys2Proof/Machine/Ops.lean ====
section
/-! DEFINITION. The named operations the meanings share: writes of one state field, the output buffer, raising a
fault, the fault and lifecycle checks every command begins with, and the fetch of a command. -/

namespace Sys2Proof.Machine

/-- The outcome of a command or a step. -/
abbrev Result := Host.Outcome State Fault Refusal

/-! ### Writes of one field -/

/-- `LIFE <- l` -/
def State.withLife (s : State) (l : Life) : State := { s with life := l }

/-- `RESP <- w` -/
def State.withResp (s : State) (w : Word) : State := { s with resp := w }

/-- `FAULT <- r` -/
def State.withFault (s : State) (r : FaultRecord) : State := { s with fault := some r }

/-- The registers of the instance become `v`. -/
def State.withVoice (s : State) (v : Voice) : State := { s with voice := v }

/-- `OUT` becomes `m`. -/
def State.withOut (s : State) (m : Memory) : State := { s with out := m }

/-- The bytes the host has delivered and the block has not executed become `bs`. -/
def State.withStream (s : State) (bs : List Byte) : State := { s with stream := bs }

/-- One more free register file has been used (log 4). -/
def State.nextEpoch (s : State) : State := { s with epoch := s.epoch + 1 }

/-! ### The output buffer -/

/-- The byte at address `a`; `none` where the block has written nothing (log 7). -/
def readByte (m : Memory) (a : Nat) : Option Byte :=
  match m with
  | [] => none
  | c :: rest => if c.1 = a then some c.2 else readByte rest a

/-- Write one byte, keeping the addresses strictly rising. -/
def writeByte (m : Memory) (a : Nat) (b : Byte) : Memory :=
  match m with
  | [] => [(a, b)]
  | c :: rest =>
    if c.1 < a then c :: writeByte rest a b
    else if c.1 = a then (a, b) :: rest
    else (a, b) :: c :: rest

/-- The canonical form of a memory: addresses strictly rising. -/
def memoryWf : Memory → Bool
  | [] => true
  | [_] => true
  | c :: d :: rest => decide (c.1 < d.1) && memoryWf (d :: rest)

/-- Write `OUT[j]`: the pattern at byte offsets `4j .. 4j+3`, least significant byte first (20_memory.md R54). -/
def writeWord (m : Memory) (j : Nat) (v : Word) : Memory :=
  let m1 := writeByte m (4 * j) (v.extractLsb' 0 8)
  let m2 := writeByte m1 (4 * j + 1) (v.extractLsb' 8 8)
  let m3 := writeByte m2 (4 * j + 2) (v.extractLsb' 16 8)
  writeByte m3 (4 * j + 3) (v.extractLsb' 24 8)

/-- `OUT[j]` as a host reads it (20_memory.md R54); `none` where the block has not written all of it. -/
def readWord (m : Memory) (j : Nat) : Option Word :=
  match readByte m (4 * j), readByte m (4 * j + 1), readByte m (4 * j + 2), readByte m (4 * j + 3) with
  | some b0, some b1, some b2, some b3 => some (b3 ++ b2 ++ b1 ++ b0)
  | _, _, _, _ => none

/-! ### Faults and legality -/

/-- `raise Fault(code)` by a command whose first word is `w0`: `FAULT` becomes the record and nothing else changes
(00_scope.md R14, 60_exceptions.md R260). This is the block's whole exception entry; there is no return from it
(R271). -/
def raiseFault (code : FaultCode) (w0 : Word) (s : State) : Result := .next (s.withFault ⟨code, w0⟩)

/-- Nothing runs while `FAULT` holds a record (60_exceptions.md R260, R268 item 1). -/
def whenRunning (s : State) (k : Result) : Result :=
  match s.fault with
  | some r => .fault (.stopped r)
  | none => k

/-- The lifecycle check of every command but `INIT` and `TEARDOWN` (46_lifecycle_host.md R241, 60_exceptions.md
R261). -/
def whenReady (i : Instr) (s : State) (k : Result) : Result :=
  whenRunning s (if s.life = .ready then k else raiseFault .notReady i.word0 s)

/-! ### Fetch -/

/-- The next command of the stream (20_memory.md R54, R55; 30_encoding.md R72). -/
def fetch (s : State) : Decoded := decode s.stream

/-- One cycle: nothing while a fault is recorded; a whole command is taken from the stream and run; an illegal word
is taken and faults (30_encoding.md R76); with no whole command delivered the block stays as it is (60_exceptions.md
R279, log 5). -/
def cycle (run : Instr → State → Result) (s : State) : Result :=
  whenRunning s <|
    match fetch s with
    | .command i rest => run i (s.withStream rest)
    | .illegal w0 rest => raiseFault .illegal w0 (s.withStream rest)
    | .incomplete => .next s

/-- Deliver the bytes `bs` as the next command: they stand before what is already in the stream. -/
def deliver (s : State) (bs : List Byte) : State := s.withStream (bs ++ s.stream)

end Sys2Proof.Machine
end

