-- ==== Sys2Proof/Machine/Gate.lean ====
section
/-! DEFINITION. The Gate/Note State Machine and the event surface (44_gate.md R190 to R198). -/

namespace Sys2Proof.Machine

/-- The registers after a note-on of note `n` at velocity `vel` (44_gate.md R190). -/
def noteOnVoice (n vel : Byte) (v : Voice) : Voice :=
  { v with
    note := { v.note with baseNote := f32OfInt n.toNat, velAmp := fdiv (f32OfInt vel.toNat) 0x42FE0000 }
    gate := gateUp v.gate
    retrig := true }

/-- The registers after a note-off (44_gate.md R191). -/
def noteOffVoice (v : Voice) : Voice := { v with gate := gateDown v.gate }

/-- `NOTE_ON n, vel` (44_gate.md R190). -/
def execNoteOn (n vel : Byte) (s : State) : Result :=
  whenReady (.noteOn n vel) s
    (if inNoteDomain n && inNoteDomain vel then .next (s.withVoice (noteOnVoice n vel s.voice))
      else raiseFault .domain (Instr.noteOn n vel).word0 s)

/-- `NOTE_OFF n` (44_gate.md R191). -/
def execNoteOff (n : Byte) (s : State) : Result :=
  whenReady (.noteOff n) s
    (if inNoteDomain n then .next (s.withVoice (noteOffVoice s.voice))
      else raiseFault .domain (Instr.noteOff n).word0 s)

/-- `ALL_NOTE_OFF` (44_gate.md R192, R194). -/
def execAllNoteOff (s : State) : Result :=
  whenReady .allNoteOff s
    (.next (if s.cfg.allNoteOffClears then s.withVoice { s.voice with gate := 0 } else s))

/-- `PITCH_BEND pb`, accepted and ignored (44_gate.md R195). -/
def execPitchBend (pb : BitVec 16) (s : State) : Result := whenReady (.pitchBend pb) s (.next s)

/-- `CHANNEL_PRESSURE pr`, accepted and ignored (44_gate.md R196). -/
def execChannelPressure (pr : Byte) (s : State) : Result := whenReady (.channelPressure pr) s (.next s)

/-- `AFTERTOUCH n, val`, accepted and ignored (44_gate.md R197). -/
def execAftertouch (n val : Byte) (s : State) : Result := whenReady (.aftertouch n val) s (.next s)

end Sys2Proof.Machine
end

