-- ==== Sys2Proof/Machine/Envelope.lean ====
section
/-! DEFINITION. The Envelope Generator, simple-ADSR engine (41_envelope.md R120 to R128). -/

namespace Sys2Proof.Machine

/-- `ENTER(s)` (41_envelope.md R121). -/
def envEnter (s : EnvStage) (e : EnvRegs) : EnvRegs := { e with stage := s, l0 := e.level, n := 0 }

/-- The rebase of a ramp: `ENV_L0 <- ENV_LEVEL; ENV_N <- 0` (41_envelope.md R125). -/
def envRebase (e : EnvRegs) : EnvRegs := { e with l0 := e.level, n := 0 }

/-- Phase 1, the gate-driven transitions, but for the clearing of `RETRIG` (41_envelope.md R121). -/
def envGate (trig retrig : Bool) (e : EnvRegs) : EnvRegs :=
  if trig then
    match e.stage with
    | .idle => envEnter .attack e
    | .attack => e
    | .decay => if retrig then envEnter .attack e else e
    | .sustain => if retrig then envEnter .attack e else e
    | .release => envEnter .attack e
  else
    match e.stage with
    | .idle => e
    | .attack => envEnter .release e
    | .decay => envEnter .release e
    | .sustain => envEnter .release e
    | .release => e

/-- One more frame of a rising ramp: `ENV_N <- ENV_N + 1; ENV_LEVEL <- ENV_L0 + (f32(ENV_N) * inc)` (R122). -/
def rampUp (inc : F32) (e : EnvRegs) : EnvRegs :=
  let n := e.n + 1
  { e with n := n, level := fadd e.l0 (fmul (f32OfInt n.toNat) inc) }

/-- One more frame of a falling ramp: `ENV_N <- ENV_N + 1; ENV_LEVEL <- ENV_L0 - (f32(ENV_N) * inc)` (R122). -/
def rampDown (inc : F32) (e : EnvRegs) : EnvRegs :=
  let n := e.n + 1
  { e with n := n, level := fsub e.l0 (fmul (f32OfInt n.toNat) inc) }

/-- Phase 2, the level advance (41_envelope.md R122, R123). -/
def envAdvance (e : EnvRegs) : EnvRegs :=
  match e.stage with
  | .idle => { e with level := 0 }
  | .attack =>
    let e1 := rampUp e.attInc e
    if fle 0x3F800000 e1.level then envEnter .decay { e1 with level := 0x3F800000 } else e1
  | .decay =>
    let e1 := rampDown e.decInc e
    if fle e1.level e1.susLevel then envEnter .sustain { e1 with level := e1.susLevel } else e1
  | .sustain => { e with level := e.susLevel }
  | .release =>
    let e1 := rampDown e.relInc e
    if fle e1.level 0 then envEnter .idle { e1 with level := 0 } else e1

/-- `ENV_STEP(trig)`: the registers after it; the returned level is their `ENV_LEVEL` (R121, R122). The caller clears
`RETRIG`. -/
def envStep (trig retrig : Bool) (e : EnvRegs) : EnvRegs := envAdvance (envGate trig retrig e)

end Sys2Proof.Machine
end

