-- ==== Sys2Proof/Machine/Trans.lean ====
section
/-! DEFINITION. The configuration functions `EXP2` and `TAN` (00_scope.md R9, R13). The default is the correctly
rounded value. It is computed from a rational interval around the true value: when both ends round to the same
binary32 value, that value is the answer. Where they would not, the answer is the free value of Config, so that no
uncertain rounding is ever passed off as the correct one (log 9). -/

namespace Sys2Proof.Machine

/-- The common rounding of the two ends `n1 / d1 ≤ n2 / d2` of an interval, in units of `2^-149`, or `fallback`
where the ends round apart. -/
def roundBetween (fallback : F32) (s : Bool) (n1 d1 n2 d2 : Nat) : F32 :=
  let lo := roundMag n1 d1
  if lo = roundMag n2 d2 then packF s lo else fallback

/-! ### `EXP2` -/

/-- `⌊ln 2 · 2^128⌋`. -/
def ln2Scaled : Nat := 0xb17217f7d1cf79abc9e3b39803f2f6af

/-- The partial sum of `exp y`, all values in units of `2^-128`: `t` is the term with index `k - 1`. -/
def expSum (y : Nat) : Nat → Nat → Nat → Nat → Nat
  | 0, _, _, acc => acc
  | fuel + 1, k, t, acc => expSum y fuel (k + 1) (t * y / (2 ^ 128 * k)) (acc + t)

/-- A lower bound of `2^f`, `f = frac / 2^149` in `[0, 1)`, in units of `2^-128`. Every step rounds down, and the
truncated terms and roundings together stay below `2^12` units. -/
def exp2Lower (frac : Nat) : Nat := expSum (ln2Scaled * frac / 2 ^ 149) 45 1 (2 ^ 128) 0

/-- The correctly rounded `2^x` for `-150 ≤ x < 128`; `j = x + 150` in units of `2^-149`. -/
def exp2Mid (fallback : F32) (j : Nat) : F32 :=
  let whole := j / 2 ^ 149
  let frac := j % 2 ^ 149
  if frac = 0 then packF false (roundMag (2 ^ whole) 2)
  else
    let lower := exp2Lower frac
    roundBetween fallback false (lower * 2 ^ whole) (2 ^ 129) ((lower + 2 ^ 12) * 2 ^ whole) (2 ^ 129)

/-- The default `EXP2`: the correctly rounded binary32 value of `2^x` (R13). -/
def exp2Rounded (x : F32) : F32 :=
  if isNaN x then nanResult .exp2 x x
  else if isInf x then (if fSign x then 0 else packF false infMag)
  else if 128 * 2 ^ 149 ≤ fVal x then packF false infMag
  else if fVal x < -(150 * 2 ^ 149) then 0
  else exp2Mid (Config.exp2 x) (fVal x + 150 * 2 ^ 149).toNat

/-! ### `TAN` -/

/-- `⌊π · 2^512⌋`. -/
def piScaled : Nat :=
  0x3243f6a8885a308d313198a2e03707344a4093822299f31d0082efa98ec4e6c89452821e638d01377be5466cf34e90c6cc0ac29b7c97c50dd3f84d5b5b5470917

/-- The sums of the terms `m^k / k!` by `k` modulo 4, in units of `2^-512`. -/
structure TrigSums where
  s0 : Nat
  s1 : Nat
  s2 : Nat
  s3 : Nat
  deriving DecidableEq, Repr

/-- Add the term `t`, whose index is `k - 1`, and turn the four sums by one place. -/
def trigSum (m : Nat) : Nat → Nat → Nat → TrigSums → TrigSums
  | 0, _, _, a => a
  | fuel + 1, k, t, a => trigSum m fuel (k + 1) (t * m / (2 ^ 512 * k)) ⟨a.s1, a.s2, a.s3, a.s0 + t⟩

/-- The bound on the error of the computed sine and cosine, in units of `2^-512`. -/
def trigSlack : Nat := 2 ^ 130

/-- The correctly rounded `tan m` with sign `s`, for `m` in `[0, π/2]` in units of `2^-512`. -/
def tanReduced (fallback : F32) (s : Bool) (m : Nat) : F32 :=
  let a := trigSum m 104 1 (2 ^ 512) ⟨0, 0, 0, 0⟩
  let cos := a.s0 - a.s2
  let sin := a.s1 - a.s3
  if cos ≤ trigSlack then fallback
  else roundBetween fallback s (2 ^ 149 * (sin - trigSlack)) (cos + trigSlack) (2 ^ 149 * (sin + trigSlack)) (cos - trigSlack)

/-- The default `TAN`: the correctly rounded binary32 value of `tan x` (R13). The argument is reduced modulo `π`. -/
def tanRounded (x : F32) : F32 :=
  if isNaN x || isInf x then nanResult .tan x x
  else if fMag x = 0 then x
  else
    let r := 2 ^ 363 * fMag x % piScaled
    if 2 * r ≤ piScaled then tanReduced (Config.tan x) (fSign x) r
    else tanReduced (Config.tan x) (!fSign x) (piScaled - r)

/-! ### The functions an instance has -/

/-- `EXP2` (R9, R13). -/
def exp2 (m : MathUnit) (x : F32) : F32 :=
  match m with
  | .correctlyRounded => exp2Rounded x
  | .implementation => Config.exp2 x

/-- `TAN` (R9, R13). -/
def tan (m : MathUnit) (x : F32) : F32 :=
  match m with
  | .correctlyRounded => tanRounded x
  | .implementation => Config.tan x

end Sys2Proof.Machine
end

