-- ==== Sys2Proof/Machine/Params.lean ====
section
/-! DEFINITION. The parameter commands, the derivations of 43_parameters.md R164 to R171, and the Modulation Router
(R172 to R178). -/

namespace Sys2Proof.Machine

/-! ### Derivations. Each takes the clamped value `vc` of R163, but for `WAVE`, which takes the raw value. -/

/-- `DERIVE(0)`, `NOTE` (R164). -/
def deriveNote (vc : Int) (v : Voice) : Voice := { v with note := { v.note with baseNote := f32OfInt vc } }

/-- The shape a raw `WAVE` value selects (R165). -/
def waveShape (raw : Int) : Shape := if raw = 1 then .rect else if raw = 2 then .tri else .saw

/-- `DERIVE(1)`, `WAVE`, from the raw value (R165). -/
def deriveWave (raw : Int) (v : Voice) : Voice := { v with osc := { v.osc with shape := waveShape raw } }

/-- `DERIVE(2)`, `CUTOFF` (R166). -/
def deriveCutoff (vc : Int) (v : Voice) : Voice :=
  { v with note := { v.note with cutOfs := fsub (f32OfInt vc) 0x42000000 } }

/-- `DERIVE(3)`, `RESONANCE` (R167). -/
def deriveResonance (m : MathUnit) (vc : Int) (v : Voice) : Voice :=
  { v with note := { v.note with resQ := fmul 0x3F3504F3 (exp2 m (fdiv (f32OfInt vc) 0x41C80000)) } }

/-- The per-sample increment of a stage of `vc + 1` milliseconds (R168). -/
def stageInc (vc : Int) : F32 := fdiv 0x3F800000 (fmul (f32OfInt (vc + 1)) 0x42400000)

/-- `DERIVE(4)`, `ATTACK`, with its rebase (R168, 41_envelope.md R125). -/
def deriveAttack (vc : Int) (v : Voice) : Voice :=
  let e := { v.env with attInc := stageInc vc }
  { v with env := if v.env.stage = .attack then envRebase e else e }

/-- `DERIVE(5)`, `DECAY`, with its rebase (R168, 41_envelope.md R125). -/
def deriveDecay (vc : Int) (v : Voice) : Voice :=
  let e := { v.env with decInc := stageInc vc }
  { v with env := if v.env.stage = .decay then envRebase e else e }

/-- `DERIVE(6)`, `SUSTAIN` (R169). -/
def deriveSustain (vc : Int) (v : Voice) : Voice :=
  { v with env := { v.env with susLevel := fdiv (f32OfInt (vc + 1)) 0x42C80000 } }

/-- `DERIVE(7)`, `RELEASE`, with its rebase (R168, 41_envelope.md R125). -/
def deriveRelease (vc : Int) (v : Voice) : Voice :=
  let e := { v.env with relInc := stageInc vc }
  { v with env := if v.env.stage = .release then envRebase e else e }

/-- The intensity `d = f32(vc) / 100.0` (R170). -/
def intensity (vc : Int) : F32 := fdiv (f32OfInt vc) 0x42C80000

/-- `DERIVE(8)`, `AMP_INT` (R170). -/
def deriveAmpInt (vc : Int) (v : Voice) : Voice :=
  { v with note := { v.note with ampDepth := intensity vc, ampRev := fsub 0x3F800000 (intensity vc) } }

/-- `DERIVE(9)`, `PITCH_INT` (R170). -/
def derivePitchInt (vc : Int) (v : Voice) : Voice :=
  { v with note := { v.note with pitchDepth := fmul (intensity vc) 0x41400000 } }

/-- `DERIVE(10)`, `CUTOFF_INT` (R170). -/
def deriveCutoffInt (vc : Int) (v : Voice) : Voice :=
  { v with note := { v.note with cutDepth := fmul (intensity vc) 0x42700000 } }

/-- `DERIVE(11)`, `PWM_INT` (R170). -/
def derivePwmInt (vc : Int) (v : Voice) : Voice :=
  { v with note := { v.note with pwmDepth := fmul (intensity vc) 0x3EE66666 } }

/-- `DERIVE(i)` for the value `w`; slots 12..23 derive nothing (R161, R163, R171). -/
def derive (m : MathUnit) (i : Fin 24) (w : Word) (v : Voice) : Voice :=
  match i.val with
  | 0 => deriveNote (clampedParam i w) v
  | 1 => deriveWave w.toInt v
  | 2 => deriveCutoff (clampedParam i w) v
  | 3 => deriveResonance m (clampedParam i w) v
  | 4 => deriveAttack (clampedParam i w) v
  | 5 => deriveDecay (clampedParam i w) v
  | 6 => deriveSustain (clampedParam i w) v
  | 7 => deriveRelease (clampedParam i w) v
  | 8 => deriveAmpInt (clampedParam i w) v
  | 9 => derivePitchInt (clampedParam i w) v
  | 10 => deriveCutoffInt (clampedParam i w) v
  | 11 => derivePwmInt (clampedParam i w) v
  | _ => v

/-- `P[i] <- w; DERIVE(i)` (R161). -/
def setParam (m : MathUnit) (i : Fin 24) (w : Word) (v : Voice) : Voice :=
  derive m i w { v with p := v.p.set i.val w i.isLt }

/-- `P[i]` (R162). -/
def getParam (i : Fin 24) (v : Voice) : Word := v.p.get i

/-- The index check of a parameter command (60_exceptions.md R262, R268 item 4). -/
def withSlot (i : Instr) (a : Byte) (s : State) (k : Fin 24 → Result) : Result :=
  match paramSlot? a with
  | none => raiseFault .paramIndex i.word0 s
  | some n => k n

/-! ### Commands -/

/-- `SET_PARAM i, v` (R161). -/
def execSetParam (i : Byte) (v : Word) (s : State) : Result :=
  whenReady (.setParam i v) s
    (withSlot (.setParam i v) i s fun n => .next (s.withVoice (setParam s.cfg.math n v s.voice)))

/-- `GET_PARAM i` (R162). -/
def execGetParam (i : Byte) (s : State) : Result :=
  whenReady (.getParam i) s (withSlot (.getParam i) i s fun n => .next (s.withResp (getParam n s.voice)))

/-- `GET_PARAM_STR i, v`: no custom representation (46_lifecycle_host.md R239). -/
def execGetParamStr (i : Byte) (v : Word) (s : State) : Result :=
  whenReady (.getParamStr i v) s (withSlot (.getParamStr i v) i s fun _ => .next (s.withResp 0))

/-- `GET_PARAM_BMP i, v`: no custom representation (46_lifecycle_host.md R240). -/
def execGetParamBmp (i : Byte) (v : Word) (s : State) : Result :=
  whenReady (.getParamBmp i v) s (withSlot (.getParamBmp i v) i s fun _ => .next (s.withResp 0))

/-! ### The Modulation Router -/

/-- `NOTE_HZ(n)` (R172). -/
def noteHz (m : MathUnit) (n : F32) : F32 := fmul 0x43DC0000 (exp2 m (fdiv (fsub n 0x428A0000) 0x41400000))

/-- The oscillator frequency of a frame (R175). -/
def routeFreq (m : MathUnit) (r : NoteRegs) (env : F32) : F32 :=
  fclamp (noteHz m (fadd r.baseNote (fmul env r.pitchDepth))) 0x3F800000 0x463B8000

/-- The pulse width of a frame (R176). -/
def routePw (r : NoteRegs) (env : F32) : F32 :=
  fclamp (fadd 0x3F000000 (fmul env r.pwmDepth)) 0x3D4CCCCD 0x3F733333

/-- The cutoff of a frame (R177). -/
def routeCutoff (m : MathUnit) (r : NoteRegs) (env : F32) : F32 :=
  fclamp (noteHz m (fadd (fadd r.baseNote r.cutOfs) (fmul env r.cutDepth))) 0x41200000 0x46B3B000

/-- The gain of a frame (R178). -/
def routeGain (r : NoteRegs) (env tf : F32) : F32 :=
  fmul r.velAmp (fadd (fmul r.ampDepth env) (fmul r.ampRev tf))

end Sys2Proof.Machine
end

