-- ==== Sys2Proof/Machine/Lifecycle.lean ====
section
/-! DEFINITION. `INIT`, `TEARDOWN` and the preset surface (46_lifecycle_host.md R230 to R238). -/

namespace Sys2Proof.Machine

/-- The registers `LOAD_DEFAULTS()` writes before its derivations (46_lifecycle_host.md R233). The registers that only
a derivation writes stand at zero here, and every one of them is written by `loadDefaults`. -/
def defaultVoice : Voice where
  p := Vector.ofFn paramDefault
  note := ⟨0, 0, 0, 0, 0, 0, 0, 0, 0⟩
  gate := 0
  retrig := false
  env := ⟨.idle, 0, 0, 0, 0, 0, 0, 0⟩
  osc := ⟨0, .saw, 0x3F000000⟩
  flt := ⟨0, 0, 0, 0, 0, 0, 0⟩

/-- `DERIVE(i)` from the value the slot holds (46_lifecycle_host.md R233). -/
def deriveSlot (m : MathUnit) (v : Voice) (i : Fin 24) : Voice := derive m i (getParam i v) v

/-- `LOAD_DEFAULTS()` (46_lifecycle_host.md R233). -/
def loadDefaults (m : MathUnit) : Voice :=
  List.foldl (deriveSlot m) defaultVoice [0, 1, 2, 3, 4, 5, 6, 7, 8, 9, 10, 11]

/-- A failed `INIT` writes `LIFE` and `RESP` only (46_lifecycle_host.md R230, R231). -/
def initFails (code : Word) (s : State) : Result := .next ((s.withLife .failed).withResp code)

/-- The body of `INIT` in `UNINIT`: the rate is checked first, the channel count second (R230, R232). -/
def initUninit (ch : Byte) (rate : Word) (s : State) : Result :=
  if rate.toNat ≠ 48000 then initFails errSamplerate s
  else if ch.toNat ≠ 2 then initFails errGeometry s
  else .next (((s.withVoice (loadDefaults s.cfg.math)).withLife .ready).withResp errNone)

/-- `INIT rate, ch` (46_lifecycle_host.md R230, R234). -/
def execInit (ch : Byte) (rate : Word) (s : State) : Result :=
  whenRunning s
    (match s.life with
      | .ready => raiseFault .reinit (Instr.init ch rate).word0 s
      | .failed => raiseFault .notReady (Instr.init ch rate).word0 s
      | .uninit => initUninit ch rate s)

/-- `TEARDOWN` (46_lifecycle_host.md R235): in `READY` every register but `LIFE`, `FAULT` and `RESP` becomes unwritten,
that is free (log 4). -/
def execTeardown (s : State) : Result :=
  whenRunning s
    (match s.life with
      | .ready => .next ((s.withVoice (Config.unwritten s.epoch)).withLife .uninit).nextEpoch
      | .uninit => .next s
      | .failed => .next s)

/-- `LOAD_PRESET pi`, accepted and ignored (46_lifecycle_host.md R236). -/
def execLoadPreset (pi : Byte) (s : State) : Result := whenReady (.loadPreset pi) s (.next s)

/-- `GET_PRESET_INDEX`: the single implicit preset (46_lifecycle_host.md R237). -/
def execGetPresetIndex (s : State) : Result := whenReady .getPresetIndex s (.next (s.withResp 0))

/-- `GET_PRESET_NAME pi`: no name (46_lifecycle_host.md R238). -/
def execGetPresetName (pi : Byte) (s : State) : Result := whenReady (.getPresetName pi) s (.next (s.withResp 0))

end Sys2Proof.Machine
end

