-- ==== Sys2Proof/Machine/Filter.lean ====
section
/-! DEFINITION. The Resonant Filter (42_filter.md R140 to R144). -/

namespace Sys2Proof.Machine

/-- `FILT_SET(fc, q)`: the coefficients recomputed, the delay memory kept (42_filter.md R140, R141). -/
def filtSet (m : MathUnit) (fc q : F32) (f : FltRegs) : FltRegs :=
  let k := tan m (fmul 0x40490FDB (fdiv fc 0x473B8000))
  let kk := fmul k k
  let kq := fdiv k q
  let norm := fdiv 0x3F800000 (fadd (fadd 0x3F800000 kq) kk)
  let a0 := fmul kk norm
  { f with
    a0 := a0
    a1 := fmul 0x40000000 a0
    a2 := a0
    b1 := fmul (fmul 0x40000000 (fsub kk 0x3F800000)) norm
    b2 := fmul (fadd (fsub 0x3F800000 kq) kk) norm }

/-- The bound test of the runaway guard: `fabs(v) <= 65536.0`, false for a NaN (42_filter.md R142, R144). -/
def inGuard (v : F32) : Bool := fle (fabs v) 0x47800000

/-- `y` before the guard (42_filter.md R142). -/
def filtY (x : F32) (f : FltRegs) : F32 := fadd (fmul x f.a0) f.z1

/-- `FLT_Z1` before the guard (42_filter.md R142). -/
def filtZ1 (x : F32) (f : FltRegs) : F32 := fsub (fadd (fmul x f.a1) f.z2) (fmul f.b1 (filtY x f))

/-- `FLT_Z2` before the guard (42_filter.md R142). -/
def filtZ2 (x : F32) (f : FltRegs) : F32 := fsub (fmul x f.a2) (fmul f.b2 (filtY x f))

/-- All three values pass the guard (42_filter.md R144). -/
def guardPasses (x : F32) (f : FltRegs) : Bool := inGuard (filtY x f) && inGuard (filtZ1 x f) && inGuard (filtZ2 x f)

/-- `FILT_PLAY(x)`, the filter registers after it (42_filter.md R142, R144). -/
def filtNext (x : F32) (f : FltRegs) : FltRegs :=
  if guardPasses x f then { f with z1 := filtZ1 x f, z2 := filtZ2 x f } else { f with z1 := 0, z2 := 0 }

/-- `FILT_PLAY(x)`, the value it returns (42_filter.md R142, R144). -/
def filtOut (x : F32) (f : FltRegs) : F32 := if guardPasses x f then filtY x f else 0

end Sys2Proof.Machine
end

