-- ==== Sys2Proof/Machine/Oscillator.lean ====
section
/-! DEFINITION. The Waveform Oscillator (40_oscillator.md R100 to R108). -/

namespace Sys2Proof.Machine

/-- `FS = 48000.0` (40_oscillator.md R100). -/
def sampleRate : F32 := 0x473B8000

/-- `BLEP(t, dt)` (40_oscillator.md R102). -/
def blep (t dt : F32) : F32 :=
  if flt t dt then
    let x := fdiv t dt
    fsub (fsub (fadd x x) (fmul x x)) 0x3F800000
  else if flt (fsub 0x3F800000 dt) t then
    let x := fdiv (fsub t 0x3F800000) dt
    fadd (fadd (fmul x x) (fadd x x)) 0x3F800000
  else 0

/-- The effective pulse width `pe` (40_oscillator.md R103). -/
def effectivePw (dt pw : F32) : F32 :=
  let d2 := fmul 0x40000000 dt
  fmin (fmax pw d2) (fsub 0x3F800000 d2)

/-- `SHAPE_SAMPLE(RECT, ph, dt, pw)` (40_oscillator.md R103). -/
def rectSample (ph dt pw : F32) : F32 :=
  let t2 := fsub ph (effectivePw dt pw)
  if flt t2 0 then
    fsub (fadd 0x3F800000 (blep ph dt)) (blep (fadd t2 0x3F800000) dt)
  else
    fsub (fadd 0xBF800000 (blep ph dt)) (blep t2 dt)

/-- `SHAPE_SAMPLE(SAW, ph, dt, pw)` (40_oscillator.md R104). -/
def sawSample (ph dt : F32) : F32 := fsub (fsub (fmul 0x40000000 ph) 0x3F800000) (blep ph dt)

/-- `SHAPE_SAMPLE(TRI, ph, dt, pw)` (40_oscillator.md R105). -/
def triSample (ph : F32) : F32 := fsub 0x3F800000 (fmul 0x40800000 (fabs (fsub ph 0x3F000000)))

/-- `SHAPE_SAMPLE(OSC_SHAPE, ph, dt, pw)` (40_oscillator.md R103 to R106). -/
def shapeSample (shape : Shape) (ph dt pw : F32) : F32 :=
  match shape with
  | .saw => sawSample ph dt
  | .rect => rectSample ph dt pw
  | .tri => triSample ph

/-- The phase increment `dt` (40_oscillator.md R101). -/
def phaseStep (freq : F32) : F32 := fdiv freq sampleRate

/-- The phase after one frame (40_oscillator.md R101). -/
def nextPhase (phase dt : F32) : F32 :=
  let ph := fadd phase dt
  if fle 0x3F800000 ph then fsub ph 0x3F800000 else ph

/-- `OSC_PLAY(freq, pw)`, the oscillator registers after it (40_oscillator.md R101). -/
def oscNext (freq pw : F32) (o : OscRegs) : OscRegs :=
  { o with phase := nextPhase o.phase (phaseStep freq), pw := pw }

/-- `OSC_PLAY(freq, pw)`, the sample it returns (40_oscillator.md R101). -/
def oscSample (freq pw : F32) (o : OscRegs) : F32 :=
  shapeSample o.shape (nextPhase o.phase (phaseStep freq)) (phaseStep freq) pw

end Sys2Proof.Machine
end

