-- ==== Sys2Proof/Machine/Render.lean ====
section
/-! DEFINITION. The render loop and the voice lifecycle commands (45_render.md R210 to R217). -/

namespace Sys2Proof.Machine

/-- What one frame leaves: the registers and the sample `o`. -/
structure FrameResult where
  voice : Voice
  sample : F32
  deriving DecidableEq, Repr

/-- The pipeline of one frame (45_render.md R211), less the two writes of the sample. -/
def framePipeline (m : MathUnit) (v : Voice) : FrameResult :=
  let trig := trigger v.gate
  let e := envStep trig v.retrig v.env
  let env := e.level
  let freq := routeFreq m v.note env
  let pw := routePw v.note env
  let x := oscSample freq pw v.osc
  let f := filtSet m (routeCutoff m v.note env) v.note.resQ v.flt
  let y := filtOut x f
  let g := routeGain v.note env (triggerLevel trig)
  { voice := { v with retrig := false, env := e, osc := oscNext freq pw v.osc, flt := filtNext x f }
    sample := fmul y g }

/-- `FRAME(k)`: the pipeline, and `o` written to `OUT[2k]` and `OUT[2k+1]` (45_render.md R211, R212). -/
def frame (k : Nat) (s : State) : State :=
  let r := framePipeline s.cfg.math s.voice
  { s with voice := r.voice, out := writeWord (writeWord s.out (2 * k) r.sample) (2 * k + 1) r.sample }

/-- The frames `k .. k + count - 1` in order (45_render.md R210). -/
def renderFrames (k : Nat) : Nat → State → State
  | 0, s => s
  | count + 1, s => renderFrames (k + 1) count (frame k s)

/-- `RENDER nf` (45_render.md R210). -/
def execRender (nf : Word) (s : State) : Result :=
  whenReady (.render nf) s
    (if s.cfg.outCapFrames < nf.toNat then raiseFault .buffer (Instr.render nf).word0 s
      else .next (renderFrames 0 nf.toNat s))

/-- What `RESET` writes in every configuration (45_render.md R213). -/
def resetVoice (v : Voice) : Voice :=
  { v with osc := ⟨0, .saw, 0x3F000000⟩, gate := 0, retrig := false }

/-- What `RESET` writes besides when `CFG_RESET_CLEARS_VOICE` is true (45_render.md R213, R214). -/
def clearVoice (v : Voice) : Voice :=
  { v with
    env := { v.env with stage := .idle, level := 0, l0 := 0, n := 0 }
    flt := { v.flt with z1 := 0, z2 := 0 } }

/-- `RESET` (45_render.md R213). -/
def execReset (s : State) : Result :=
  whenReady .reset s
    (.next (s.withVoice (if s.cfg.resetClearsVoice then clearVoice (resetVoice s.voice) else resetVoice s.voice)))

/-- `RESUME`, a lifecycle no-op (45_render.md R215). -/
def execResume (s : State) : Result := whenReady .resume s (.next s)

/-- `SUSPEND`, a lifecycle no-op (45_render.md R216). -/
def execSuspend (s : State) : Result := whenReady .suspend s (.next s)

end Sys2Proof.Machine
end

