-- ==== Sys2Proof/Machine/Dispatch.lean ====
section
/-! DEFINITION. The meaning of each command, one arm per constructor of Instr. -/

namespace Sys2Proof.Machine

def exec (i : Instr) (s : State) : Host.Outcome State Fault Refusal :=
  match i with
  | .init ch rate => Sys2Proof.Machine.execInit ch rate s
  | .teardown => Sys2Proof.Machine.execTeardown s
  | .reset => Sys2Proof.Machine.execReset s
  | .resume => Sys2Proof.Machine.execResume s
  | .suspend => Sys2Proof.Machine.execSuspend s
  | .setParam idx v => Sys2Proof.Machine.execSetParam idx v s
  | .getParam idx => Sys2Proof.Machine.execGetParam idx s
  | .getParamStr idx v => Sys2Proof.Machine.execGetParamStr idx v s
  | .getParamBmp idx v => Sys2Proof.Machine.execGetParamBmp idx v s
  | .noteOn n vel => Sys2Proof.Machine.execNoteOn n vel s
  | .noteOff n => Sys2Proof.Machine.execNoteOff n s
  | .allNoteOff => Sys2Proof.Machine.execAllNoteOff s
  | .pitchBend pb => Sys2Proof.Machine.execPitchBend pb s
  | .channelPressure pr => Sys2Proof.Machine.execChannelPressure pr s
  | .aftertouch n val => Sys2Proof.Machine.execAftertouch n val s
  | .loadPreset pi => Sys2Proof.Machine.execLoadPreset pi s
  | .getPresetIndex => Sys2Proof.Machine.execGetPresetIndex s
  | .getPresetName pi => Sys2Proof.Machine.execGetPresetName pi s
  | .render nf => Sys2Proof.Machine.execRender nf s

end Sys2Proof.Machine
end

