-- ==== Sys2Proof/Machine/Step.lean ====
section
/-! DEFINITION. One step of the machine: fetch the next command the host has delivered and run it
(20_memory.md R55). -/

namespace Sys2Proof.Machine

/-- One step. Fetching, the illegal word and the wait for a command are `cycle`'s (Ops.lean). -/
def step (s : State) : Host.Outcome State Fault Refusal := cycle exec s

/-- `s` with the command whose bits are `w` delivered as the next one (log 5). -/
def State.withFetchWord (s : State) (nbits w : Nat) : State := deliver s (tableBytes nbits w)

end Sys2Proof.Machine
end

