-- ==== Sys2Proof/Safety.lean ====
section
/-! DEFINITION. What counts as a safe run and as a good state, in the terms the statements use. -/

namespace Sys2Proof.Safety

open Sys2Proof Sys2Proof.Machine

/-- No fault is recorded (10_state.md R33). Every claim about a run takes this as a premise (46_lifecycle_host.md
R246). -/
abbrev FaultFree (s : State) : Prop := s.fault = none

/-- The instance is usable: `LIFE = READY` and `FAULT = NONE` (10_state.md R37, 46_lifecycle_host.md R241). -/
abbrev Usable (s : State) : Prop := s.fault = none ∧ s.life = .ready

/-- The commands in order, to the first that does not answer a next state (20_memory.md R59, 46_lifecycle_host.md
R246). A run in which a command faults ends there and has no final state, even where that command is the last: it
answers the stop its `FAULT` holds. -/
def runAll : List Instr → State → Result
  | [], s => whenRunning s (.next s)
  | i :: rest, s =>
    match exec i s with
    | .next t => runAll rest t
    | .fault r => .fault r
    | .refused r => .refused r

/-- The word matches no row of the opcode map: an undefined opcode, a nonzero `RSV`, or a nonzero `A` or `B` that the
format requires to be 0 (30_encoding.md R76). -/
def IllegalWord (w0 : Word) : Prop :=
  (∀ o : Opcode, o.byte ≠ w0.extractLsb' 0 8) ∨
  w0.extractLsb' 24 8 ≠ 0 ∨
  ∃ o : Opcode, o.byte = w0.extractLsb' 0 8 ∧
    (((o.format = .f0 ∨ o.format = .fw) ∧ w0.extractLsb' 8 8 ≠ 0) ∨ (o.format ≠ .fab ∧ w0.extractLsb' 16 8 ≠ 0))

/-- The commands that may write `RESP` (10_state.md R32). -/
def writesResp : Instr → Bool
  | .init _ _ => true
  | .teardown => false
  | .reset => false
  | .resume => false
  | .suspend => false
  | .setParam _ _ => false
  | .getParam _ => true
  | .getParamStr _ _ => true
  | .getParamBmp _ _ => true
  | .noteOn _ _ => false
  | .noteOff _ => false
  | .allNoteOff => false
  | .pitchBend _ => false
  | .channelPressure _ => false
  | .aftertouch _ _ => false
  | .loadPreset _ => false
  | .getPresetIndex => true
  | .getPresetName _ => true
  | .render _ => false

/-! ### Runs and what the host observes of one (46_lifecycle_host.md R246) -/

/-- The state a run starts in: `LIFE = UNINIT`, `FAULT = NONE`, `RESP = 0` (R246). -/
abbrev RunStart (s : State) : Prop := s.life = .uninit ∧ s.fault = none ∧ s.resp = 0

/-- The frame count of a `RENDER`, `none` for every other command. -/
def renderCount? : Instr → Option Nat
  | .render nf => some nf.toNat
  | _ => none

/-- Words `0 .. n - 1` of `OUT`. -/
def outWords (m : Memory) (n : Nat) : List (Option Word) := (List.range n).map (readWord m)

/-- What the host observes of a run that ends without a fault (R246). -/
structure Observation where
  /-- `RESP` after each answering command, in order -/
  answers : List Word
  /-- the words each `RENDER` wrote, in order; no entry is `none`, as the statement StereoIdentity says -/
  renders : List (List (Option Word))
  /-- the final state -/
  final : State
  deriving DecidableEq, Repr

/-- How a run ends. -/
inductive RunEnd where
  /-- its last command has completed and no fault is recorded -/
  | final (o : Observation)
  /-- a command faulted, and the run has no final state -/
  | faulted (r : FaultRecord)
  /-- a command has no meaning in the model; no arm of `exec` answers so -/
  | refused (r : Refusal)
  deriving DecidableEq, Repr

/-- An observation with the command `i`, which ended in `t`, put before it. -/
def Observation.after (i : Instr) (t : State) (o : Observation) : Observation where
  answers := if writesResp i then t.resp :: o.answers else o.answers
  renders :=
    match renderCount? i with
    | some nf => outWords t.out (2 * nf) :: o.renders
    | none => o.renders
  final := o.final

/-- The end of a run with what was fetched, which ended in `t`, put before it. A wait shows the host nothing. -/
def RunEnd.after (d : Decoded) (t : State) (e : RunEnd) : RunEnd :=
  match d, e with
  | .command i _, .final o => .final (o.after i t)
  | .command _ _, e => e
  | .illegal _ _, e => e
  | .incomplete, e => e

/-- The run of at most `n` steps from `s`. A state with a fault recorded is never final. -/
def observe : Nat → State → RunEnd
  | 0, s =>
    match s.fault with
    | none => .final ⟨[], [], s⟩
    | some r => .faulted r
  | n + 1, s =>
    match step s with
    | .next t => (observe n t).after (fetch s) t
    | .fault (.stopped r) => .faulted r
    | .refused r => .refused r

/-- The run of the commands `bs` delivered to `s`, to its end: a step for each byte is more than enough, and the steps
with no command left show nothing (R246). -/
def runOf (bs : List Byte) (s : State) : RunEnd := observe bs.length (s.withStream bs)

/-- `INIT` and `TEARDOWN`, the only commands that may write `LIFE` (10_state.md R21). -/
def isLifecycle : Instr → Bool
  | .init _ _ => true
  | .teardown => true
  | .reset => false
  | .resume => false
  | .suspend => false
  | .setParam _ _ => false
  | .getParam _ => false
  | .getParamStr _ _ => false
  | .getParamBmp _ _ => false
  | .noteOn _ _ => false
  | .noteOff _ => false
  | .allNoteOff => false
  | .pitchBend _ => false
  | .channelPressure _ => false
  | .aftertouch _ _ => false
  | .loadPreset _ => false
  | .getPresetIndex => false
  | .getPresetName _ => false
  | .render _ => false

/-- The accepted commands that have no effect (44_gate.md R195 to R197, 45_render.md R215, R216, 46_lifecycle_host.md
R236). -/
def isNoOp : Instr → Bool
  | .init _ _ => false
  | .teardown => false
  | .reset => false
  | .resume => true
  | .suspend => true
  | .setParam _ _ => false
  | .getParam _ => false
  | .getParamStr _ _ => false
  | .getParamBmp _ _ => false
  | .noteOn _ _ => false
  | .noteOff _ => false
  | .allNoteOff => false
  | .pitchBend _ => true
  | .channelPressure _ => true
  | .aftertouch _ _ => true
  | .loadPreset _ => true
  | .getPresetIndex => false
  | .getPresetName _ => false
  | .render _ => false

/-- Which fault codes a command can raise (60_exceptions.md R260). -/
def mayRaise (c : FaultCode) (i : Instr) : Bool :=
  match c with
  | .notReady => i != .teardown
  | .paramIndex =>
    match i.opcode with
    | .setParam => true
    | .getParam => true
    | .getParamStr => true
    | .getParamBmp => true
    | _ => false
  | .buffer => i.opcode == .render
  | .illegal => false
  | .domain => i.opcode == .noteOn || i.opcode == .noteOff
  | .reinit => i.opcode == .init

/-! ### Note events (44_gate.md R193) -/

/-- An in-domain `NOTE_ON` or `NOTE_OFF`. -/
def isNoteEvent : Instr → Bool
  | .noteOn n vel => inNoteDomain n && inNoteDomain vel
  | .noteOff n => inNoteDomain n
  | _ => false

/-- `NOTE_ON`. -/
def isNoteOn : Instr → Bool
  | .noteOn _ _ => true
  | _ => false

/-- `+1` for a note-on, `-1` for any other note event (R193 item 3). -/
def noteDelta (i : Instr) : Int := if isNoteOn i then 1 else -1

/-- `max(0, max over k of (x_k + ... + x_m))` (R193 item 3). -/
def suffixMax : List Int → Int
  | [] => 0
  | x :: xs => max (x :: xs).sum (suffixMax xs)

/-! ### Ranges of the registers (10_state.md R37) -/

/-- `lo <= x <= hi` in binary32. It excludes a NaN. -/
abbrev InRange (x lo hi : F32) : Prop := fle lo x = true ∧ fle x hi = true

/-- The envelope part of R37: the levels in [0, 1], `SUS_LEVEL` in [0.01, 1], the increments in [1/240000, 1/48]
(the nearest binary32 values), `ENV_N < 2^24`. -/
structure EnvInRange (e : EnvRegs) : Prop where
  level : InRange e.level 0 0x3F800000
  l0 : InRange e.l0 0 0x3F800000
  susLevel : InRange e.susLevel 0x3C23D70A 0x3F800000
  attInc : InRange e.attInc 0x368BCF65 0x3CAAAAAB
  decInc : InRange e.decInc 0x368BCF65 0x3CAAAAAB
  relInc : InRange e.relInc 0x368BCF65 0x3CAAAAAB
  n : e.n.toNat < 2 ^ 24

/-- `0 <= OSC_PHASE < 1` (R37). -/
abbrev PhaseInRange (o : OscRegs) : Prop := fle 0 o.phase = true ∧ flt o.phase 0x3F800000 = true

/-- `0.05 <= OSC_PW <= 0.95` (R37). -/
abbrev PwInRange (o : OscRegs) : Prop := InRange o.pw 0x3D4CCCCD 0x3F733333

/-- The delay memory passes the runaway guard's bound, so it holds no NaN and no infinity (42_filter.md R144). -/
abbrev FilterBounded (f : FltRegs) : Prop := inGuard f.z1 = true ∧ inGuard f.z2 = true

/-- The registers of the gain lie in [0, 1] and the two depths do not sum above 1 (43_parameters.md R178). -/
structure GainInRange (r : NoteRegs) : Prop where
  velAmp : InRange r.velAmp 0 0x3F800000
  ampDepth : InRange r.ampDepth 0 0x3F800000
  ampRev : InRange r.ampRev 0 0x3F800000
  total : fle (fadd r.ampDepth r.ampRev) 0x3F800000 = true

/-! ### Invariants of the machine -/

/-- The output buffer is in canonical form and holds nothing at or above its capacity: no write was out of bounds
(20_memory.md R52). -/
structure OutputInBounds (s : State) : Prop where
  wf : memoryWf s.out = true
  bound : ∀ a, readByte s.out a ≠ none → a < 8 * s.cfg.outCapFrames

/-- `RES_Q >= 0.70710677`, and at most the 11.313708 of R167, while the instance is usable (R37). -/
abbrev ResonanceInRange (s : State) : Prop :=
  s.life = .ready → InRange s.voice.note.resQ 0x3F3504F3 0x413504F3

end Sys2Proof.Safety
end

