-- ==== Sys2Proof/Certificates/Slice0/Obligations.lean ====
section
/-! DEFINITION. The statements for the provers. Each docstring names the rules of spec/ it formalises. -/

open Sys2Proof Sys2Proof.Machine Sys2Proof.Safety

/-! ### Encoding -/

/-- One or two words of each family, written out byte by byte from 30_encoding.md R70 to R78 (95_test_vectors.md
V-ENC-1), decode to the command they stand for. -/
def Obligations.SampleWordsDecode : Prop :=
  decode [0x01, 0x02, 0x00, 0x00, 0x80, 0xBB, 0x00, 0x00] = .command (.init 2 48000) [] ∧
  decode [0x02, 0x00, 0x00, 0x00] = .command .teardown [] ∧
  decode [0x10, 0x02, 0x00, 0x00, 0xFF, 0xFF, 0xFF, 0xFF] = .command (.setParam 2 0xFFFFFFFF) [] ∧
  decode [0x11, 0x14, 0x00, 0x00] = .command (.getParam 20) [] ∧
  decode [0x20, 0x3C, 0x7F, 0x00] = .command (.noteOn 60 127) [] ∧
  decode [0x23, 0x00, 0x20, 0x00] = .command (.pitchBend 0x2000) [] ∧
  decode [0x25, 0x3C, 0x5A, 0x00] = .command (.aftertouch 60 90) [] ∧
  decode [0x30, 0x03, 0x00, 0x00] = .command (.loadPreset 3) [] ∧
  decode [0x40, 0x00, 0x00, 0x00, 0xC0, 0x12, 0x00, 0x00] = .command (.render 4800) []

/-- Decoding an encoded command gives it back, whatever bytes follow (R70 to R73, R75, R78). -/
def Obligations.DecodeOfEncode : Prop :=
  ∀ (i : Instr) (rest : List Byte), decode (encode i ++ rest) = .command i rest

/-- The bytes a command was decoded from are its encoding: each command has one encoding (R70 to R73, R75, R78). -/
def Obligations.EncodeOfDecode : Prop :=
  ∀ (bs : List Byte) (i : Instr) (rest : List Byte), decode bs = .command i rest → bs = encode i ++ rest

/-- The words that select no row are those of the three cases of R76. -/
def Obligations.UnselectedWordsAreTheIllegalWords : Prop :=
  ∀ w0 : Word, Opcode.ofWord? w0 = none ↔ IllegalWord w0

/-! ### Steps -/

/-- When the delivered bytes begin with a command, a step is that command's `exec` with its bytes taken from the
stream, and nothing else (20_memory.md R54, R55). -/
def Obligations.StepRunsTheDecodedCommand : Prop :=
  ∀ (s : State) (i : Instr) (rest : List Byte), FaultFree s → decode s.stream = .command i rest →
    step s = exec i { s with stream := rest }

/-- An illegal word records `F_ILLEGAL` and `W0`, only `W0` is consumed, and no later step runs (R264). -/
def Obligations.IllegalWordFaults : Prop :=
  ∀ (s : State) (w0 : Word) (rest : List Byte), FaultFree s → s.stream = wordBytes w0 ++ rest → IllegalWord w0 →
    step s = .next { s with stream := rest, fault := some ⟨.illegal, w0⟩ } ∧
    step { s with stream := rest, fault := some ⟨.illegal, w0⟩ } = .fault (.stopped ⟨.illegal, w0⟩)

/-- While `FAULT` holds a record nothing runs: no step and no command (60_exceptions.md R260 item 3, R268 item 1), and the
state is the final state of no run, of however many commands or steps (46_lifecycle_host.md R246). -/
def Obligations.RecordedFaultStopsTheBlock : Prop :=
  ∀ (s : State) (r : FaultRecord), s.fault = some r →
    step s = .fault (.stopped r) ∧ (∀ i : Instr, exec i s = .fault (.stopped r)) ∧
    (∀ cmds : List Instr, runAll cmds s = .fault (.stopped r)) ∧ ∀ n : Nat, observe n s = .faulted r

/-- With no whole command delivered a step changes nothing. The model's choice (log 5): R279 says only that the block
acts when the host issues a command. -/
def Obligations.NoCommandNoChange : Prop :=
  ∀ s : State, FaultFree s → decode s.stream = .incomplete → step s = .next s

/-! ### Faults and legality -/

/-- The legality table (46_lifecycle_host.md R241, 60_exceptions.md R261, R266): with no fault recorded, every command
but `INIT` and `TEARDOWN` faults `F_NOT_READY` outside `READY`; `INIT` faults `F_REINIT` in `READY` and `F_NOT_READY` in
`FAILED`; `TEARDOWN` never faults, and goes to `UNINIT` from `READY` and changes nothing elsewhere; and a command the
table calls ok raises neither code. -/
def Obligations.LegalityTable : Prop :=
  ∀ (i : Instr) (s : State), FaultFree s →
    (isLifecycle i = false → s.life ≠ .ready → exec i s = .next { s with fault := some ⟨.notReady, i.word0⟩ }) ∧
    (i.opcode = .init → s.life = .ready → exec i s = .next { s with fault := some ⟨.reinit, i.word0⟩ }) ∧
    (i.opcode = .init → s.life = .failed → exec i s = .next { s with fault := some ⟨.notReady, i.word0⟩ }) ∧
    (isLifecycle i = false → s.life = .ready → ∃ t, exec i s = .next t ∧
      t.fault ≠ some ⟨.notReady, i.word0⟩ ∧ t.fault ≠ some ⟨.reinit, i.word0⟩) ∧
    (i.opcode = .init → s.life = .uninit → ∃ t, exec i s = .next t ∧ t.fault = none) ∧
    (i.opcode = .teardown → ∃ t, exec i s = .next t ∧ t.fault = none ∧ (s.life = .ready → t.life = .uninit) ∧
      (s.life ≠ .ready → t = s))

/-- The operand faults, each changing nothing but `FAULT`: `F_PARAM_INDEX` for an index above 23 (R262), `F_BUFFER` for
a frame count above `OUT_CAP_FRAMES`, before any word is written (R263), and `F_DOMAIN` for a note or a velocity above
127 (R265). -/
def Obligations.OperandFaults : Prop :=
  ∀ (s : State) (a b : Byte) (v : Word), Usable s →
    (23 < a.toNat → ∀ i ∈ [Instr.setParam a v, .getParam a, .getParamStr a v, .getParamBmp a v],
      exec i s = .next { s with fault := some ⟨.paramIndex, i.word0⟩ }) ∧
    (s.cfg.outCapFrames < v.toNat →
      exec (.render v) s = .next { s with fault := some ⟨.buffer, (Instr.render v).word0⟩ }) ∧
    ((127 < a.toNat ∨ 127 < b.toNat) →
      exec (.noteOn a b) s = .next { s with fault := some ⟨.domain, (Instr.noteOn a b).word0⟩ }) ∧
    (127 < a.toNat → exec (.noteOff a) s = .next { s with fault := some ⟨.domain, (Instr.noteOff a).word0⟩ })

/-- A command that raises a fault changes nothing but `FAULT`, which records its own first word and a code the table of
R260 lets it raise (R260 items 1 and 2). -/
def Obligations.FaultingCommandOnlyRecords : Prop :=
  ∀ (i : Instr) (s t : State) (r : FaultRecord), FaultFree s → exec i s = .next t → t.fault = some r →
    t = { s with fault := some r } ∧ r.word = i.word0 ∧ mayRaise r.code i = true

/-! ### Lifecycle -/

/-- A successful `INIT` sets every register to the value of the table of 10_state.md R36. `RES_Q` is the product of
R167, which with the default `EXP2` is the table's `0x3F3504F3`. -/
def Obligations.InitLoadsTheDefaults : Prop :=
  ∀ s : State, FaultFree s → s.life = .uninit →
    exec (.init 2 48000) s = .next
      { s with
        life := .ready
        resp := 0
        voice :=
          { p := #v[60, 0, 127, 0, 9, 199, 69, 199, 100, 0, 0, 0, 0, 0, 0, 0, 0, 0, 0, 0, 0, 0, 0, 0]
            note := ⟨0x42700000, 0, 0x42BE0000, fmul 0x3F3504F3 (exp2 s.cfg.math 0), 0x3F800000, 0, 0, 0, 0⟩
            gate := 0
            retrig := false
            env := ⟨.idle, 0, 0, 0, 0x3B088889, 0x38DA740E, 0x38DA740E, 0x3F333333⟩
            osc := ⟨0, .saw, 0x3F000000⟩
            flt := ⟨0, 0, 0, 0, 0, 0, 0⟩ } } ∧
    (s.cfg.math = .correctlyRounded → fmul 0x3F3504F3 (exp2 s.cfg.math 0) = 0x3F3504F3)

/-- `INIT` checks the sample rate first and the channel count second; each failure writes `LIFE` and its own code in
`RESP` only (46_lifecycle_host.md R230, R231, R232). -/
def Obligations.InitFailures : Prop :=
  ∀ (s : State) (ch : Byte) (rate : Word), FaultFree s → s.life = .uninit →
    (rate.toNat ≠ 48000 → exec (.init ch rate) s = .next { s with life := .failed, resp := 0xFFFFFFFC }) ∧
    (rate.toNat = 48000 → ch.toNat ≠ 2 → exec (.init ch rate) s = .next { s with life := .failed, resp := 0xFFFFFFF8 })

/-- `TEARDOWN` in `READY` gives `UNINIT`, keeps `RESP`, `FAULT`, `OUT` and the model arguments, and says nothing of the
other registers; after it every command but `INIT` and `TEARDOWN` faults `F_NOT_READY` and an `INIT` may run; elsewhere
it changes nothing (46_lifecycle_host.md R235). -/
def Obligations.TeardownRule : Prop :=
  ∀ s : State, FaultFree s →
    (s.life = .ready → ∃ t, exec .teardown s = .next t ∧
      t = { s with life := .uninit, voice := t.voice, epoch := t.epoch } ∧
      (∀ i : Instr, isLifecycle i = false → exec i t = .next { t with fault := some ⟨.notReady, i.word0⟩ }) ∧
      ∃ u, exec (.init 2 48000) t = .next u ∧ u.life = .ready) ∧
    (s.life ≠ .ready → exec .teardown s = .next s)

/-- An instance that is torn down and initialised again has the registers of a first initialisation, whatever it held
before (R235, R281, 95_test_vectors.md V-LIFE-3). -/
def Obligations.TeardownThenInitIsFresh : Prop :=
  ∀ s s0 t0 : State, Usable s → FaultFree s0 → s0.life = .uninit → s0.cfg.math = s.cfg.math →
    exec (.init 2 48000) s0 = .next t0 →
    ∃ t, runAll [.teardown, .init 2 48000] s = .next t ∧ t.voice = t0.voice ∧ t.life = .ready ∧ t.resp = 0 ∧
      t.out = s.out

/-- `RESET` (45_render.md R213, R214): the oscillator, the gate and the latch to their defaults; the envelope and the
filter memory survive unless `CFG_RESET_CLEARS_VOICE` is true. Outside `READY` it faults. -/
def Obligations.ResetRule : Prop :=
  ∀ s : State, FaultFree s →
    (s.life ≠ .ready → exec .reset s = .next { s with fault := some ⟨.notReady, Instr.reset.word0⟩ }) ∧
    (s.life = .ready → s.cfg.resetClearsVoice = false → exec .reset s = .next
      { s with voice := { s.voice with osc := ⟨0, .saw, 0x3F000000⟩, gate := 0, retrig := false } }) ∧
    (s.life = .ready → s.cfg.resetClearsVoice = true → exec .reset s = .next
      { s with voice :=
        { s.voice with
          osc := ⟨0, .saw, 0x3F000000⟩
          gate := 0
          retrig := false
          env := { s.voice.env with stage := .idle, level := 0, l0 := 0, n := 0 }
          flt := { s.voice.flt with z1 := 0, z2 := 0 } } })

/-- `RESUME`, `SUSPEND`, `PITCH_BEND`, `CHANNEL_PRESSURE`, `AFTERTOUCH` and `LOAD_PRESET` change nothing in `READY`,
whatever their operands, and fault outside it (R195, R196, R197, R215, R216, R236). -/
def Obligations.AcceptedNoOps : Prop :=
  ∀ (i : Instr) (s : State), isNoOp i = true → FaultFree s →
    (s.life = .ready → exec i s = .next s) ∧
    (s.life ≠ .ready → exec i s = .next { s with fault := some ⟨.notReady, i.word0⟩ })

/-- `GET_PRESET_INDEX`, `GET_PRESET_NAME`, `GET_PARAM_STR` and `GET_PARAM_BMP` answer 0 in `RESP` and change nothing else;
the last two fault on an index above 23, and all four outside `READY` (R237, R238, R239, R240). -/
def Obligations.NullAnswers : Prop :=
  ∀ (s : State) (a : Byte) (v : Word), FaultFree s →
    (s.life = .ready →
      exec .getPresetIndex s = .next { s with resp := 0 } ∧
      exec (.getPresetName a) s = .next { s with resp := 0 } ∧
      (a.toNat ≤ 23 → exec (.getParamStr a v) s = .next { s with resp := 0 } ∧
        exec (.getParamBmp a v) s = .next { s with resp := 0 }) ∧
      (23 < a.toNat →
        exec (.getParamStr a v) s = .next { s with fault := some ⟨.paramIndex, (Instr.getParamStr a v).word0⟩ } ∧
        exec (.getParamBmp a v) s = .next { s with fault := some ⟨.paramIndex, (Instr.getParamBmp a v).word0⟩ })) ∧
    (s.life ≠ .ready → ∀ i ∈ [Instr.getPresetIndex, .getPresetName a, .getParamStr a v, .getParamBmp a v],
      exec i s = .next { s with fault := some ⟨.notReady, i.word0⟩ })

/-! ### Parameters -/

/-- `GET_PARAM i` (43_parameters.md R162): `RESP <- P[i]` and nothing else; the faults of R161. -/
def Obligations.GetParamRule : Prop :=
  ∀ (s : State) (a : Byte), FaultFree s →
    (s.life ≠ .ready → exec (.getParam a) s = .next { s with fault := some ⟨.notReady, (Instr.getParam a).word0⟩ }) ∧
    (s.life = .ready → 23 < a.toNat →
      exec (.getParam a) s = .next { s with fault := some ⟨.paramIndex, (Instr.getParam a).word0⟩ }) ∧
    (s.life = .ready → ∀ h : a.toNat < 24, exec (.getParam a) s = .next { s with resp := s.voice.p[a.toNat] })

/-- Round trip (R179 item 1): `SET_PARAM i, v` then `GET_PARAM j` answers `v` for `j = i`, and what it answered before for
every other slot `j`. -/
def Obligations.ParamRoundTrip : Prop :=
  ∀ (s : State) (a b : Byte) (v : Word), Usable s → a.toNat < 24 → ∀ h : b.toNat < 24,
    ∃ t u, exec (.setParam a v) s = .next t ∧ exec (.getParam b) t = .next u ∧
      u.resp = if a = b then v else s.voice.p[b.toNat]

/-- Two consecutive identical `SET_PARAM` commands leave the same state as one (20_memory.md R57). -/
def Obligations.SetParamIdempotent : Prop :=
  ∀ (s t : State) (a : Byte) (v : Word), FaultFree s → FaultFree t → exec (.setParam a v) s = .next t →
    exec (.setParam a v) t = .next t

/-- `SET_PARAM NOTE` (R164) and `SET_PARAM CUTOFF` (R166). -/
def Obligations.SetNoteAndCutoffRule : Prop :=
  ∀ (s : State) (v : Word), Usable s →
    exec (.setParam 0 v) s = .next
      { s with voice :=
        { s.voice with
          p := s.voice.p.set 0 v
          note := { s.voice.note with baseNote := f32OfInt (clampi v.toInt 0 127) } } } ∧
    exec (.setParam 2 v) s = .next
      { s with voice :=
        { s.voice with
          p := s.voice.p.set 2 v
          note := { s.voice.note with cutOfs := fsub (f32OfInt (clampi v.toInt 0 127)) (f32OfInt 32) } } }

/-- `SET_PARAM WAVE` (R165): the raw value selects the shape, every value but 1 and 2 the sawtooth, and the phase is
kept. -/
def Obligations.SetWaveRule : Prop :=
  ∀ (s : State) (v : Word), Usable s → exec (.setParam 1 v) s = .next
    { s with voice :=
      { s.voice with
        p := s.voice.p.set 1 v
        osc := { s.voice.osc with shape := if v = 1 then .rect else if v = 2 then .tri else .saw } } }

/-- `SET_PARAM RESONANCE` (R167) and `SET_PARAM SUSTAIN` (R169). -/
def Obligations.SetResonanceAndSustainRule : Prop :=
  ∀ (s : State) (v : Word), Usable s →
    exec (.setParam 3 v) s = .next
      { s with voice :=
        { s.voice with
          p := s.voice.p.set 3 v
          note := { s.voice.note with
            resQ := fmul 0x3F3504F3 (exp2 s.cfg.math (fdiv (f32OfInt (clampi v.toInt 0 100)) (f32OfInt 25))) } } } ∧
    exec (.setParam 6 v) s = .next
      { s with voice :=
        { s.voice with
          p := s.voice.p.set 6 v
          env := { s.voice.env with susLevel := fdiv (f32OfInt (clampi v.toInt 0 99 + 1)) (f32OfInt 100) } } }

/-- `SET_PARAM ATTACK`, `DECAY` and `RELEASE` (R168, with the rebase of 41_envelope.md R125): the increment of the stage,
and, when that stage is the current one, `ENV_L0 <- ENV_LEVEL` and `ENV_N <- 0`. -/
def Obligations.SetStageTimeRule : Prop :=
  ∀ (s : State) (v : Word), Usable s →
    let inc := fdiv (f32OfInt 1) (fmul (f32OfInt (clampi v.toInt 0 4999 + 1)) (f32OfInt 48))
    let e := s.voice.env
    exec (.setParam 4 v) s = .next
      { s with voice :=
        { s.voice with
          p := s.voice.p.set 4 v
          env := if e.stage = .attack then { e with attInc := inc, l0 := e.level, n := 0 }
            else { e with attInc := inc } } } ∧
    exec (.setParam 5 v) s = .next
      { s with voice :=
        { s.voice with
          p := s.voice.p.set 5 v
          env := if e.stage = .decay then { e with decInc := inc, l0 := e.level, n := 0 }
            else { e with decInc := inc } } } ∧
    exec (.setParam 7 v) s = .next
      { s with voice :=
        { s.voice with
          p := s.voice.p.set 7 v
          env := if e.stage = .release then { e with relInc := inc, l0 := e.level, n := 0 }
            else { e with relInc := inc } } }

/-- `SET_PARAM AMP_INT`, `PITCH_INT`, `CUTOFF_INT` and `PWM_INT` (R170). -/
def Obligations.SetIntensityRule : Prop :=
  ∀ (s : State) (v : Word), Usable s →
    let r := s.voice.note
    let amp := fdiv (f32OfInt (clampi v.toInt 0 100)) (f32OfInt 100)
    let d := fdiv (f32OfInt (clampi v.toInt (-100) 100)) (f32OfInt 100)
    exec (.setParam 8 v) s = .next
      { s with voice :=
        { s.voice with
          p := s.voice.p.set 8 v
          note := { r with ampDepth := amp, ampRev := fsub (f32OfInt 1) amp } } } ∧
    exec (.setParam 9 v) s = .next
      { s with voice :=
        { s.voice with p := s.voice.p.set 9 v, note := { r with pitchDepth := fmul d (f32OfInt 12) } } } ∧
    exec (.setParam 10 v) s = .next
      { s with voice :=
        { s.voice with p := s.voice.p.set 10 v, note := { r with cutDepth := fmul d (f32OfInt 60) } } } ∧
    exec (.setParam 11 v) s = .next
      { s with voice :=
        { s.voice with p := s.voice.p.set 11 v, note := { r with pwmDepth := fmul d 0x3EE66666 } } }

/-- A reserved slot 12..23 stores the raw value, derives nothing, and reads back (R171). -/
def Obligations.ReservedSlotRule : Prop :=
  ∀ (s : State) (a : Byte) (v : Word), Usable s → 12 ≤ a.toNat → ∀ h : a.toNat < 24,
    let t : State := { s with voice := { s.voice with p := s.voice.p.set a.toNat v h } }
    exec (.setParam a v) s = .next t ∧ exec (.getParam a) t = .next { t with resp := v }

/-! ### Note events -/

/-- `NOTE_ON n, vel` (44_gate.md R190). -/
def Obligations.NoteOnRule : Prop :=
  ∀ (s : State) (n vel : Byte), FaultFree s →
    (s.life ≠ .ready → exec (.noteOn n vel) s = .next { s with fault := some ⟨.notReady, (Instr.noteOn n vel).word0⟩ }) ∧
    (s.life = .ready → (127 < n.toNat ∨ 127 < vel.toNat) →
      exec (.noteOn n vel) s = .next { s with fault := some ⟨.domain, (Instr.noteOn n vel).word0⟩ }) ∧
    (s.life = .ready → n.toNat ≤ 127 → vel.toNat ≤ 127 → exec (.noteOn n vel) s = .next
      { s with voice :=
        { s.voice with
          note := { s.voice.note with
            baseNote := f32OfInt n.toNat, velAmp := fdiv (f32OfInt vel.toNat) (f32OfInt 127) }
          gate := if s.voice.gate.toNat = 2 ^ 32 - 1 then s.voice.gate else s.voice.gate + 1
          retrig := true } })

/-- `NOTE_OFF n` (44_gate.md R191), and `ALL_NOTE_OFF` (R192) under both values of `CFG_ALL_NOTE_OFF_CLEARS`. -/
def Obligations.NoteOffAndAllNoteOffRule : Prop :=
  ∀ (s : State) (n : Byte), FaultFree s →
    (s.life ≠ .ready →
      exec (.noteOff n) s = .next { s with fault := some ⟨.notReady, (Instr.noteOff n).word0⟩ } ∧
      exec .allNoteOff s = .next { s with fault := some ⟨.notReady, Instr.allNoteOff.word0⟩ }) ∧
    (s.life = .ready → 127 < n.toNat →
      exec (.noteOff n) s = .next { s with fault := some ⟨.domain, (Instr.noteOff n).word0⟩ }) ∧
    (s.life = .ready → n.toNat ≤ 127 → exec (.noteOff n) s = .next
      { s with voice := { s.voice with gate := if s.voice.gate = 0 then 0 else s.voice.gate - 1 } }) ∧
    (s.life = .ready → s.cfg.allNoteOffClears = true →
      exec .allNoteOff s = .next { s with voice := { s.voice with gate := 0 } }) ∧
    (s.life = .ready → s.cfg.allNoteOffClears = false → exec .allNoteOff s = .next s)

/-- The final gate count of a sequence of note events from `GATE = 0` (44_gate.md R193 item 3). -/
def Obligations.GateCountsNoteEvents : Prop :=
  ∀ (cmds : List Instr) (s : State), Usable s → s.voice.gate = 0 → (∀ i ∈ cmds, isNoteEvent i = true) →
    cmds.countP isNoteOn < 2 ^ 32 - 1 →
    ∃ t, runAll cmds s = .next t ∧ (t.voice.gate.toNat : Int) = suffixMax (cmds.map noteDelta)

/-- A note-on whose note-off arrives before the next `RENDER` leaves no trace in the envelope (44_gate.md R198,
70_reset_and_hazards.md R288). -/
def Obligations.ShortNoteLeavesNoTrace : Prop :=
  ∀ (s : State) (n vel m : Byte), Usable s → n.toNat ≤ 127 → vel.toNat ≤ 127 → m.toNat ≤ 127 →
    s.voice.gate = 0 → s.voice.env.stage = .idle → 1 ≤ s.cfg.outCapFrames →
    ∃ t, runAll [.noteOn n vel, .noteOff m, .render 1] s = .next t ∧ t.voice.env.stage = .idle ∧
      t.voice.env.level = 0 ∧ t.voice.gate = 0 ∧ t.voice.retrig = false ∧ t.voice.note.baseNote = f32OfInt n.toNat

/-! ### The envelope, the oscillator and the filter -/

/-- `ENV_STEP`: phase 1, the gate-driven transitions (41_envelope.md R121; the clearing of `RETRIG` is a clause of
OneFrameRule), then phase 2, the level advance, stage by stage (R122). -/
def Obligations.EnvelopeStepRule : Prop :=
  ∀ (trig retrig : Bool) (e : EnvRegs),
    let n := e.n + 1
    let up := fadd e.l0 (fmul (f32OfInt n.toNat) e.attInc)
    let dec := fsub e.l0 (fmul (f32OfInt n.toNat) e.decInc)
    let rel := fsub e.l0 (fmul (f32OfInt n.toNat) e.relInc)
    envStep trig retrig e = envAdvance (envGate trig retrig e) ∧
    envGate trig retrig e =
      (if trig = true ∧ (e.stage = .idle ∨ e.stage = .release ∨ (retrig = true ∧ (e.stage = .decay ∨ e.stage = .sustain)))
      then { e with stage := .attack, l0 := e.level, n := 0 }
      else if trig = false ∧ (e.stage = .attack ∨ e.stage = .decay ∨ e.stage = .sustain)
      then { e with stage := .release, l0 := e.level, n := 0 }
      else e) ∧
    (e.stage = .idle → envAdvance e = { e with level := 0 }) ∧
    (e.stage = .attack → envAdvance e =
      if fle (f32OfInt 1) up = true then { e with stage := .decay, level := f32OfInt 1, l0 := f32OfInt 1, n := 0 }
      else { e with level := up, n := n }) ∧
    (e.stage = .decay → envAdvance e =
      if fle dec e.susLevel = true then { e with stage := .sustain, level := e.susLevel, l0 := e.susLevel, n := 0 }
      else { e with level := dec, n := n }) ∧
    (e.stage = .sustain → envAdvance e = { e with level := e.susLevel }) ∧
    (e.stage = .release → envAdvance e =
      if fle rel 0 = true then { e with stage := .idle, level := 0, l0 := 0, n := 0 }
      else { e with level := rel, n := n })

/-- A retrigger restarts the attack from the current level: the first attack frame outputs `L + ATT_INC` (rounded), or
1.0 where that reaches it (41_envelope.md R127 item 4). -/
def Obligations.RetriggerStartsFromLevel : Prop :=
  ∀ e : EnvRegs, EnvInRange e → (e.stage = .decay ∨ e.stage = .sustain ∨ e.stage = .release) →
    (envStep true true e).level =
      if fle 0x3F800000 (fadd e.level e.attInc) = true then 0x3F800000 else fadd e.level e.attInc

/-- `OSC_PLAY` (40_oscillator.md R101): the registers after it and the sample it returns. -/
def Obligations.OscillatorPlays : Prop :=
  ∀ (freq pw : F32) (o : OscRegs),
    let dt := fdiv freq (f32OfInt 48000)
    let sum := fadd o.phase dt
    let ph := if fle (f32OfInt 1) sum = true then fsub sum (f32OfInt 1) else sum
    oscNext freq pw o = { o with phase := ph, pw := pw } ∧ oscSample freq pw o = shapeSample o.shape ph dt pw

/-- The corner values of `BLEP` (40_oscillator.md R102): -1 at phase 0 and +1 at phase 1, for every increment the router
can give, from 1/48000 to 0.25. -/
def Obligations.BlepCorners : Prop :=
  ∀ dt : F32, fle (fdiv (f32OfInt 1) (f32OfInt 48000)) dt = true → fle dt 0x3E800000 = true →
    blep 0 dt = 0xBF800000 ∧ blep 0x3F800000 dt = 0x3F800000

/-- The triangle's magnitude bound (40_oscillator.md R107, for `TRI`): `|s| <= 1.0` at every phase in [0, 1]. -/
def Obligations.TriangleBounded : Prop :=
  ∀ ph : F32, fle 0 ph = true → fle ph 0x3F800000 = true → fle (fabs (triSample ph)) 0x3F800000 = true

/-- The coefficients of `FILT_SET` (42_filter.md R141); the delay memory is kept (R140). -/
def Obligations.FilterCoefficients : Prop :=
  ∀ (m : MathUnit) (fc q : F32) (f : FltRegs),
    let k := tan m (fmul 0x40490FDB (fdiv fc (f32OfInt 48000)))
    let kk := fmul k k
    let kq := fdiv k q
    let norm := fdiv (f32OfInt 1) (fadd (fadd (f32OfInt 1) kq) kk)
    filtSet m fc q f =
      { f with
        a0 := fmul kk norm
        a1 := fmul (f32OfInt 2) (fmul kk norm)
        a2 := fmul kk norm
        b1 := fmul (fmul (f32OfInt 2) (fsub kk (f32OfInt 1))) norm
        b2 := fmul (fadd (fsub (f32OfInt 1) kq) kk) norm }

/-- The runaway guard (42_filter.md R144): whatever the input, the coefficients and the memory, after `FILT_PLAY` the
output and both memory words are at most 65536 in magnitude and none is a NaN; and where the guard fires all three
are 0. -/
def Obligations.GuardBoundsTheFilter : Prop :=
  ∀ (x : F32) (f : FltRegs),
    inGuard (filtOut x f) = true ∧ FilterBounded (filtNext x f) ∧
    (guardPasses x f = false → filtOut x f = 0 ∧ (filtNext x f).z1 = 0 ∧ (filtNext x f).z2 = 0)

/-- The router's outputs lie in their ranges (43_parameters.md R175 to R179 item 3): the frequency, the pulse width and the
cutoff whatever the registers and whatever `EXP2` is, and the gain in [0, 1] when the gain registers and the envelope
level are in their own ranges. -/
def Obligations.RouterOutputsInRange : Prop :=
  ∀ (m : MathUnit) (r : NoteRegs) (env : F32) (trig : Bool),
    InRange (routeFreq m r env) 0x3F800000 0x463B8000 ∧ InRange (routePw r env) 0x3D4CCCCD 0x3F733333 ∧
    InRange (routeCutoff m r env) 0x41200000 0x46B3B000 ∧
    (GainInRange r → InRange env 0 0x3F800000 → InRange (routeGain r env (triggerLevel trig)) 0 0x3F800000)

/-! ### Rendering -/

/-- `FRAME(k)` of 45_render.md R211: `RENDER (k + 1)` leaves what `RENDER k` leaves, then one run of the pipeline with its
sample written to words `2k` and `2k + 1` (with R210 and R212). `RENDER 0` leaves the state as it is. -/
def Obligations.OneFrameRule : Prop :=
  ∀ (s : State) (nf nf1 : Word), Usable s → nf1.toNat = nf.toNat + 1 → nf1.toNat ≤ s.cfg.outCapFrames →
    exec (.render 0) s = .next s ∧
    ∃ t, exec (.render nf) s = .next t ∧
      let m := t.cfg.math
      let r := t.voice.note
      let trig := decide (0 < t.voice.gate.toNat)
      let e := envAdvance (envGate trig t.voice.retrig t.voice.env)
      let env := e.level
      let tf : F32 := if trig then f32OfInt 1 else 0
      let freq := fclamp (noteHz m (fadd r.baseNote (fmul env r.pitchDepth))) (f32OfInt 1) (f32OfInt 12000)
      let pw := fclamp (fadd 0x3F000000 (fmul env r.pwmDepth)) 0x3D4CCCCD 0x3F733333
      let x := oscSample freq pw t.voice.osc
      let fc :=
        fclamp (noteHz m (fadd (fadd r.baseNote r.cutOfs) (fmul env r.cutDepth))) (f32OfInt 10) (f32OfInt 23000)
      let f := filtSet m fc r.resQ t.voice.flt
      let y := filtOut x f
      let g := fmul r.velAmp (fadd (fmul r.ampDepth env) (fmul r.ampRev tf))
      let o := fmul y g
      exec (.render nf1) s = .next
        { t with
          voice := { t.voice with retrig := false, env := e, osc := oscNext freq pw t.voice.osc, flt := filtNext x f }
          out := writeWord (writeWord t.out (2 * nf.toNat) o) (2 * nf.toNat + 1) o }

/-- `RENDER nf` completes for every `nf` the buffer holds, writes no byte at or above `8 * nf`, and keeps `P`, `GATE`,
`RESP`, `LIFE`, the voice registers, the envelope's configuration and the shape (45_render.md R210, 20_memory.md
R52). -/
def Obligations.RenderCompletesInBounds : Prop :=
  ∀ (s : State) (nf : Word), Usable s → nf.toNat ≤ s.cfg.outCapFrames →
    ∃ (t : State), exec (.render nf) s = .next t ∧
      t = { s with voice := t.voice, out := t.out } ∧
      t.voice.p = s.voice.p ∧ t.voice.gate = s.voice.gate ∧ t.voice.note = s.voice.note ∧
      t.voice.env.attInc = s.voice.env.attInc ∧ t.voice.env.decInc = s.voice.env.decInc ∧
      t.voice.env.relInc = s.voice.env.relInc ∧ t.voice.env.susLevel = s.voice.env.susLevel ∧
      t.voice.osc.shape = s.voice.osc.shape ∧
      (∀ a, 8 * nf.toNat ≤ a → readByte t.out a = readByte s.out a) ∧
      (nf = 0 → t = s) ∧ (nf ≠ 0 → t.voice.retrig = false)

/-- Stereo identity (45_render.md R217 item 2, 20_memory.md R51): both words of every frame are written and equal. -/
def Obligations.StereoIdentity : Prop :=
  ∀ (s t : State) (nf : Word), Usable s → nf.toNat ≤ s.cfg.outCapFrames → exec (.render nf) s = .next t →
    ∀ k < nf.toNat, ∃ o : F32, readWord t.out (2 * k) = some o ∧ readWord t.out (2 * k + 1) = some o

/-- Block splitting (45_render.md R217 item 4): `RENDER a` then `RENDER b` writes the samples of `RENDER (a + b)` and
leaves the same registers. -/
def Obligations.BlockSplitting : Prop :=
  ∀ (s : State) (a b c : Word), Usable s → c.toNat = a.toNat + b.toNat → c.toNat ≤ s.cfg.outCapFrames →
    ∃ ta tb tc, exec (.render a) s = .next ta ∧ exec (.render b) ta = .next tb ∧ exec (.render c) s = .next tc ∧
      tb.voice = tc.voice ∧
      (∀ j < 2 * a.toNat, readWord tc.out j = readWord ta.out j) ∧
      (∀ j < 2 * b.toNat, readWord tc.out (2 * a.toNat + j) = readWord tb.out j)

/-- The block never reads `OUT` (20_memory.md R57): two states that differ only there run every command to the same
registers, and a `RENDER` writes the same words. -/
def Obligations.OutputIsNeverRead : Prop :=
  ∀ (s t : State) (m : Memory) (i : Instr), exec i s = .next t →
    ∃ t', exec i { s with out := m } = .next t' ∧ t' = { t with out := t'.out } ∧
      (∀ nf : Word, i = .render nf → t.fault = none → ∀ j < 2 * nf.toNat, readWord t'.out j = readWord t.out j)

/-- Silence (45_render.md R217 item 6): with the gate closed and the envelope idle, and the gain registers finite, every
sample is `+0.0` or `-0.0`. -/
def Obligations.SilenceWhileIdle : Prop :=
  ∀ (s t : State) (nf : Word), Usable s → nf.toNat ≤ s.cfg.outCapFrames → s.voice.gate = 0 →
    s.voice.env.stage = .idle → isFinite s.voice.note.velAmp = true → isFinite s.voice.note.ampDepth = true →
    isFinite s.voice.note.ampRev = true → exec (.render nf) s = .next t →
    ∀ j < 2 * nf.toNat, readWord t.out j = some 0 ∨ readWord t.out j = some 0x80000000

/-- Every sample is finite and at most 65536 in magnitude (45_render.md R211), from a state whose envelope and gain
registers are in their ranges. -/
def Obligations.SamplesBounded : Prop :=
  ∀ (s t : State) (nf : Word), Usable s → nf.toNat ≤ s.cfg.outCapFrames → EnvInRange s.voice.env →
    GainInRange s.voice.note → exec (.render nf) s = .next t →
    ∀ j < 2 * nf.toNat, ∃ o : F32, readWord t.out j = some o ∧ inGuard o = true

/-! ### Frames -/

/-- Only `INIT`, `GET_PARAM`, `GET_PARAM_STR`, `GET_PARAM_BMP`, `GET_PRESET_INDEX` and `GET_PRESET_NAME` write `RESP`; every
other command leaves it unchanged (10_state.md R32). -/
def Obligations.OnlyAnswersWriteResp : Prop :=
  ∀ (i : Instr) (s t : State), writesResp i = false → exec i s = .next t → t.resp = s.resp

/-- Frame of the commands with no effect and of the answering commands but `INIT`: nothing but `RESP` (for an answer) and
`FAULT` (for a fault) changes, and every byte of `OUT` reads as before (R57, R195 to R197, R215, R216, R236 to R240). -/
def Obligations.AnswerAndNoOpFrame : Prop :=
  ∀ (i : Instr) (s t : State), (isNoOp i = true ∨ (writesResp i = true ∧ i.opcode ≠ .init)) → exec i s = .next t →
    t.life = s.life ∧ t.voice = s.voice ∧ t.cfg = s.cfg ∧ t.stream = s.stream ∧ t.epoch = s.epoch ∧
    (isNoOp i = true → t.resp = s.resp) ∧ (∀ a, readByte t.out a = readByte s.out a)

/-- Frame of `NOTE_ON`, `NOTE_OFF` and `ALL_NOTE_OFF`: only `GATE`, and for `NOTE_ON` also `RETRIG`, `BASE_NOTE` and
`VEL_AMP` (and `FAULT` for a fault) change; in particular `P`, the envelope, the oscillator, the filter and every byte
of `OUT` are kept (R190 to R192). -/
def Obligations.NoteEventFrame : Prop :=
  ∀ (i : Instr) (s t : State), (i.opcode = .noteOn ∨ i.opcode = .noteOff ∨ i.opcode = .allNoteOff) →
    exec i s = .next t →
    t.life = s.life ∧ t.resp = s.resp ∧ t.cfg = s.cfg ∧ t.stream = s.stream ∧ t.epoch = s.epoch ∧
    t.voice.p = s.voice.p ∧ t.voice.env = s.voice.env ∧ t.voice.osc = s.voice.osc ∧ t.voice.flt = s.voice.flt ∧
    t.voice.note = { s.voice.note with baseNote := t.voice.note.baseNote, velAmp := t.voice.note.velAmp } ∧
    (i.opcode ≠ .noteOn → t.voice.note = s.voice.note ∧ t.voice.retrig = s.voice.retrig) ∧
    (∀ a, readByte t.out a = readByte s.out a)

/-- Frame of `SET_PARAM i, v`: only `P[i]`, the registers of row `i` of R160 with the rebase of R168, and `FAULT` for a
fault, change. -/
def Obligations.SetParamFrame : Prop :=
  ∀ (a : Byte) (v : Word) (s t : State), exec (.setParam a v) s = .next t →
    t = { s with voice := t.voice, fault := t.fault } ∧
    (∀ j, ∀ h : j < 24, j ≠ a.toNat → t.voice.p[j] = s.voice.p[j]) ∧
    t.voice.gate = s.voice.gate ∧ t.voice.retrig = s.voice.retrig ∧ t.voice.flt = s.voice.flt ∧
    t.voice.osc = { s.voice.osc with shape := t.voice.osc.shape } ∧ (a ≠ 1 → t.voice.osc = s.voice.osc) ∧
    (a ≠ 4 → a ≠ 5 → a ≠ 6 → a ≠ 7 → t.voice.env = s.voice.env) ∧
    t.voice.env.stage = s.voice.env.stage ∧ t.voice.env.level = s.voice.env.level ∧
    (a ≠ 4 → t.voice.env.attInc = s.voice.env.attInc) ∧ (a ≠ 5 → t.voice.env.decInc = s.voice.env.decInc) ∧
    (a ≠ 7 → t.voice.env.relInc = s.voice.env.relInc) ∧ (a ≠ 6 → t.voice.env.susLevel = s.voice.env.susLevel) ∧
    (a = 6 → t.voice.env.l0 = s.voice.env.l0 ∧ t.voice.env.n = s.voice.env.n) ∧
    (s.voice.env.stage = .idle ∨ s.voice.env.stage = .sustain →
      t.voice.env.l0 = s.voice.env.l0 ∧ t.voice.env.n = s.voice.env.n) ∧
    t.voice.note.velAmp = s.voice.note.velAmp ∧
    (a ≠ 0 → t.voice.note.baseNote = s.voice.note.baseNote) ∧ (a ≠ 2 → t.voice.note.cutOfs = s.voice.note.cutOfs) ∧
    (a ≠ 3 → t.voice.note.resQ = s.voice.note.resQ) ∧
    (a ≠ 8 → t.voice.note.ampDepth = s.voice.note.ampDepth ∧ t.voice.note.ampRev = s.voice.note.ampRev) ∧
    (a ≠ 9 → t.voice.note.pitchDepth = s.voice.note.pitchDepth) ∧
    (a ≠ 10 → t.voice.note.cutDepth = s.voice.note.cutDepth) ∧
    (a ≠ 11 → t.voice.note.pwmDepth = s.voice.note.pwmDepth) ∧
    (∀ b, readByte t.out b = readByte s.out b)

/-- Frame of `INIT`, `TEARDOWN`, `RESET` and `RENDER`: `INIT` and `TEARDOWN` keep every byte of `OUT`; `RESET` keeps `LIFE`,
`RESP`, `P`, the voice registers, the envelope's configuration, the filter coefficients and every byte of `OUT`;
`RENDER` keeps `LIFE`, `RESP`, `P`, `GATE`, the voice registers and every byte at or above `8 * nf` (R210, R213, R230,
R235, R281). -/
def Obligations.LifecycleAndRenderFrame : Prop :=
  ∀ (s t : State),
    (∀ ch rate, exec (.init ch rate) s = .next t →
      t.cfg = s.cfg ∧ t.stream = s.stream ∧ t.epoch = s.epoch ∧ (t.life ≠ .ready → t.voice = s.voice) ∧
      ∀ a, readByte t.out a = readByte s.out a) ∧
    (exec .teardown s = .next t →
      t.resp = s.resp ∧ t.fault = s.fault ∧ t.cfg = s.cfg ∧ t.stream = s.stream ∧
      (s.life ≠ .ready → t = s) ∧ ∀ a, readByte t.out a = readByte s.out a) ∧
    (exec .reset s = .next t →
      t = { s with voice := t.voice, fault := t.fault } ∧ t.voice.p = s.voice.p ∧ t.voice.note = s.voice.note ∧
      t.voice.env = { t.voice.env with
        attInc := s.voice.env.attInc
        decInc := s.voice.env.decInc
        relInc := s.voice.env.relInc
        susLevel := s.voice.env.susLevel } ∧
      t.voice.flt = { s.voice.flt with z1 := t.voice.flt.z1, z2 := t.voice.flt.z2 } ∧
      (s.cfg.resetClearsVoice = false → t.voice.env = s.voice.env ∧ t.voice.flt = s.voice.flt) ∧
      ∀ a, readByte t.out a = readByte s.out a) ∧
    (∀ nf, exec (.render nf) s = .next t →
      t = { s with voice := t.voice, out := t.out, fault := t.fault } ∧ t.voice.p = s.voice.p ∧
      t.voice.gate = s.voice.gate ∧ t.voice.note = s.voice.note ∧ t.voice.osc.shape = s.voice.osc.shape ∧
      t.voice.env.attInc = s.voice.env.attInc ∧ t.voice.env.decInc = s.voice.env.decInc ∧
      t.voice.env.relInc = s.voice.env.relInc ∧ t.voice.env.susLevel = s.voice.env.susLevel ∧
      ∀ a, 8 * nf.toNat ≤ a → readByte t.out a = readByte s.out a)

/-! ### Rules of the whole machine -/

/-- Only `INIT` and `TEARDOWN` write `LIFE`; only they and `SET_PARAM` write `P`; only `RENDER` writes `OUT`
(10_state.md R21, R22, 20_memory.md R50). -/
def Obligations.OwnersOfLifeParamsAndOutput : Prop :=
  ∀ (i : Instr) (s t : State), exec i s = .next t →
    (isLifecycle i = false → t.life = s.life) ∧
    (isLifecycle i = false → i.opcode ≠ .setParam → t.voice.p = s.voice.p) ∧
    (i.opcode ≠ .render → t.out = s.out)

/-- Time passes only in frames (70_reset_and_hazards.md R292): no command but `RENDER`, and the events that set the voice
(`INIT`, `TEARDOWN`, `RESET`), moves the phase, the envelope's stage or level, or the filter. -/
def Obligations.TimePassesOnlyInFrames : Prop :=
  ∀ (i : Instr) (s t : State), isLifecycle i = false → i.opcode ≠ .reset → i.opcode ≠ .render → exec i s = .next t →
    t.voice.osc.phase = s.voice.osc.phase ∧ t.voice.osc.pw = s.voice.osc.pw ∧
    t.voice.env.stage = s.voice.env.stage ∧ t.voice.env.level = s.voice.env.level ∧ t.voice.flt = s.voice.flt

/-- No step writes the model arguments, and a step takes at most one command from the stream (00_scope.md R9, 44_gate.md
R194, 45_render.md R214, 20_memory.md R55). -/
def Obligations.StepKeepsTheModelArguments : Prop :=
  ∀ s t : State, step s = .next t → t.cfg = s.cfg ∧ ∃ taken, s.stream = taken ++ t.stream ∧ taken.length ≤ 8

/-! ### Invariants -/

/-- Every step keeps the output buffer in canonical form and within its capacity: the block never writes out of bounds
(20_memory.md R52). -/
def Obligations.StepKeepsOutputInBounds : Prop :=
  ∀ s t : State, OutputInBounds s → step s = .next t → OutputInBounds t

/-- Every step keeps the envelope registers in the ranges of 10_state.md R37 while the instance is usable. -/
def Obligations.StepKeepsEnvelopeInRange : Prop :=
  ∀ s t : State, (s.life = .ready → EnvInRange s.voice.env) → step s = .next t →
    t.life = .ready → EnvInRange t.voice.env

/-- Every step keeps `0 <= OSC_PHASE < 1` and `0.05 <= OSC_PW <= 0.95` while the instance is usable, whatever `EXP2` and
`TAN` are (10_state.md R37). -/
def Obligations.StepKeepsOscillatorInRange : Prop :=
  ∀ s t : State, (s.life = .ready → PhaseInRange s.voice.osc ∧ PwInRange s.voice.osc) → step s = .next t →
    t.life = .ready → PhaseInRange t.voice.osc ∧ PwInRange t.voice.osc

/-- Every step keeps the filter memory within the guard's bound, whatever `EXP2` and `TAN` are, and the gain registers in
their ranges (42_filter.md R144, 43_parameters.md R178). -/
def Obligations.StepKeepsFilterAndGainInRange : Prop :=
  ∀ s t : State, (s.life = .ready → FilterBounded s.voice.flt ∧ GainInRange s.voice.note) → step s = .next t →
    t.life = .ready → FilterBounded t.voice.flt ∧ GainInRange t.voice.note

/-- With the default `EXP2` every step keeps `RES_Q` in [0.70710677, 11.313708] while the instance is usable (10_state.md
R37, 43_parameters.md R167). -/
def Obligations.StepKeepsResonanceInRange : Prop :=
  ∀ s t : State, s.cfg.math = .correctlyRounded → ResonanceInRange s → step s = .next t → ResonanceInRange t

/-- The state at creation (70_reset_and_hazards.md R280): `UNINIT`, no fault, `RESP` 0, which is where a run starts
(46_lifecycle_host.md R246), and the output buffer in bounds; and the run of a first `INIT 48000, 2` from it shows the
host one answer, 0, and no rendered word, and ends in a state that meets every register range. The values of the
unwritten registers are the model's choice (log 3) and no clause rests on them. -/
def Obligations.ResetAndFirstInit : Prop :=
  RunStart State.reset ∧ OutputInBounds State.reset ∧
  ∃ t, exec (.init 2 48000) State.reset = .next t ∧
    runOf (encode (.init 2 48000)) State.reset = .final ⟨[0], [], t⟩ ∧ EnvInRange t.voice.env ∧ PhaseInRange t.voice.osc ∧
    PwInRange t.voice.osc ∧ FilterBounded t.voice.flt ∧ GainInRange t.voice.note ∧ ResonanceInRange t
end

