-- ==== Sys2Proof/Laws/Memory.lean ====
section
/-! SUPPORT. The output buffer: read after write, and the canonical form kept by every write. -/

namespace Sys2Proof.Machine

/-- A byte reads back as it was written. -/
@[simp] theorem readByte_writeByte_same (m : Memory) (a : Nat) (b : Byte) : readByte (writeByte m a b) a = some b := by
  induction m with
  | nil => simp [writeByte, readByte]
  | cons c rest ih =>
    unfold writeByte
    split
    · rename_i h
      simp [readByte, show c.1 ≠ a by omega, ih]
    · split <;> simp [readByte]

/-- A write leaves every other address alone. -/
theorem readByte_writeByte_other (m : Memory) (a a' : Nat) (b : Byte) (h : a' ≠ a) :
    readByte (writeByte m a b) a' = readByte m a' := by
  induction m with
  | nil => simp [writeByte, readByte, h.symm]
  | cons c rest ih =>
    unfold writeByte
    split
    · simp only [readByte, ih]
    · split
      · rename_i hc
        simp [readByte, h.symm, show c.1 ≠ a' from fun e => h (by omega)]
      · simp [readByte, h.symm]

/-- Writes at or above every address of a prefix keep its order: the head of a write is the old head or the new
address. -/
theorem memoryWf_cons_writeByte (c : Host.Cell) (rest : Memory) (a : Nat) (b : Byte) (hc : c.1 < a)
    (h : memoryWf (c :: rest) = true) (hr : memoryWf (writeByte rest a b) = true) :
    memoryWf (c :: writeByte rest a b) = true := by
  cases rest with
  | nil => simpa [writeByte, memoryWf] using hc
  | cons d rest =>
    simp only [memoryWf, Bool.and_eq_true, decide_eq_true_eq] at h
    unfold writeByte at hr ⊢
    split
    · rename_i hd
      rw [if_pos hd] at hr
      simp only [memoryWf, Bool.and_eq_true, decide_eq_true_eq]
      exact ⟨h.1, hr⟩
    · rename_i hd
      rw [if_neg hd] at hr
      split
      · rename_i he
        rw [if_pos he] at hr
        simp only [memoryWf, Bool.and_eq_true, decide_eq_true_eq]
        exact ⟨hc, hr⟩
      · rename_i he
        rw [if_neg he] at hr
        simp only [memoryWf, Bool.and_eq_true, decide_eq_true_eq] at hr ⊢
        exact ⟨hc, hr⟩

/-- Changing only the head's byte keeps the canonical form. -/
theorem memoryWf_head_congr (c d : Host.Cell) (rest : Memory) (h : c.1 = d.1) :
    memoryWf (c :: rest) = memoryWf (d :: rest) := by
  cases rest <;> simp [memoryWf, h]

/-- A write keeps the canonical form. -/
theorem memoryWf_writeByte (m : Memory) (a : Nat) (b : Byte) (h : memoryWf m = true) :
    memoryWf (writeByte m a b) = true := by
  induction m with
  | nil => rfl
  | cons c rest ih =>
    have hrest : memoryWf rest = true := by
      cases rest with
      | nil => rfl
      | cons d rest => simp only [memoryWf, Bool.and_eq_true] at h; exact h.2
    by_cases hlt : c.1 < a
    · rw [writeByte, if_pos hlt]
      exact memoryWf_cons_writeByte c rest a b hlt h (ih hrest)
    · rw [writeByte, if_neg hlt]
      by_cases heq : c.1 = a
      · rw [if_pos heq, memoryWf_head_congr (a, b) c rest heq.symm]
        exact h
      · rw [if_neg heq]
        simp only [memoryWf, Bool.and_eq_true, decide_eq_true_eq]
        exact ⟨by omega, h⟩

/-- A word write keeps the canonical form. -/
theorem memoryWf_writeWord (m : Memory) (j : Nat) (v : Word) (h : memoryWf m = true) :
    memoryWf (writeWord m j v) = true := by
  simp only [writeWord]
  exact memoryWf_writeByte _ _ _ (memoryWf_writeByte _ _ _ (memoryWf_writeByte _ _ _ (memoryWf_writeByte _ _ _ h)))

/-- A word write touches the four bytes of its word and no other. -/
theorem readByte_writeWord_other (m : Memory) (j a : Nat) (v : Word) (h : a < 4 * j ∨ 4 * j + 3 < a) :
    readByte (writeWord m j v) a = readByte m a := by
  simp only [writeWord]
  rw [readByte_writeByte_other _ _ _ _ (by omega), readByte_writeByte_other _ _ _ _ (by omega),
    readByte_writeByte_other _ _ _ _ (by omega), readByte_writeByte_other _ _ _ _ (by omega)]

/-- Four bytes of a word, put together again. -/
theorem append_bytes (v : Word) :
    v.extractLsb' 24 8 ++ v.extractLsb' 16 8 ++ v.extractLsb' 8 8 ++ v.extractLsb' 0 8 = v := by
  ext i hi
  simp only [BitVec.getElem_append, BitVec.getElem_extractLsb']
  repeat' split
  all_goals (rw [← BitVec.getLsbD_eq_getElem]; congr 1; omega)

/-- A word reads back as it was written. -/
theorem readWord_writeWord_same (m : Memory) (j : Nat) (v : Word) : readWord (writeWord m j v) j = some v := by
  have h0 : readByte (writeWord m j v) (4 * j) = some (v.extractLsb' 0 8) := by
    simp only [writeWord]
    rw [readByte_writeByte_other _ _ _ _ (by omega), readByte_writeByte_other _ _ _ _ (by omega),
      readByte_writeByte_other _ _ _ _ (by omega), readByte_writeByte_same]
  have h1 : readByte (writeWord m j v) (4 * j + 1) = some (v.extractLsb' 8 8) := by
    simp only [writeWord]
    rw [readByte_writeByte_other _ _ _ _ (by omega), readByte_writeByte_other _ _ _ _ (by omega),
      readByte_writeByte_same]
  have h2 : readByte (writeWord m j v) (4 * j + 2) = some (v.extractLsb' 16 8) := by
    simp only [writeWord]
    rw [readByte_writeByte_other _ _ _ _ (by omega), readByte_writeByte_same]
  have h3 : readByte (writeWord m j v) (4 * j + 3) = some (v.extractLsb' 24 8) := by
    simp only [writeWord]
    rw [readByte_writeByte_same]
  simp only [readWord, h0, h1, h2, h3, append_bytes]

/-- A word write leaves every other word alone. -/
theorem readWord_writeWord_other (m : Memory) (j j' : Nat) (v : Word) (h : j' ≠ j) :
    readWord (writeWord m j v) j' = readWord m j' := by
  simp only [readWord]
  rw [readByte_writeWord_other m j (4 * j') v (by omega), readByte_writeWord_other m j (4 * j' + 1) v (by omega),
    readByte_writeWord_other m j (4 * j' + 2) v (by omega), readByte_writeWord_other m j (4 * j' + 3) v (by omega)]

end Sys2Proof.Machine
end

