-- ==== Sys2Proof/Laws/Decode.lean ====
section
/-! SUPPORT. The parts the round trips between commands and bytes are made of. -/

namespace Sys2Proof

/-- The first word of a stream that begins with a word's bytes is that word. -/
@[simp] theorem takeWord_wordBytes (w : Word) (rest : List Byte) : takeWord (wordBytes w ++ rest) = some (w, rest) := by
  simp [wordBytes, takeWord, Machine.append_bytes]

/-- What `takeWord` took are the word's bytes. -/
theorem takeWord_some (bs rest : List Byte) (w : Word) (h : takeWord bs = some (w, rest)) :
    bs = wordBytes w ++ rest := by
  match bs, h with
  | b0 :: b1 :: b2 :: b3 :: tail, h =>
    simp only [takeWord, Option.some.injEq, Prod.mk.injEq] at h
    obtain ⟨rfl, rfl⟩ := h
    simp only [wordBytes, List.cons_append, List.nil_append, List.cons.injEq, and_true]
    refine ⟨?_, ?_, ?_, ?_⟩ <;>
    · ext i hi
      simp only [BitVec.getElem_extractLsb', BitVec.getLsbD_append]
      simp (disch := omega) only [if_pos, if_neg]
      rw [← BitVec.getLsbD_eq_getElem]
      first
        | rfl
        | (congr 1; omega)

/-- Field `A` of an assembled first word. -/
@[simp] theorem fieldA_assembled (r b a o : Byte) : fieldA (r ++ b ++ a ++ o) = a := by
  ext i hi
  simp only [fieldA, BitVec.getElem_extractLsb', BitVec.getLsbD_append]
  simp (disch := omega) only [if_pos, if_neg]
  rw [← BitVec.getLsbD_eq_getElem]
  first | omega | (congr 1; omega)

/-- Field `B` of an assembled first word. -/
@[simp] theorem fieldB_assembled (r b a o : Byte) : fieldB (r ++ b ++ a ++ o) = b := by
  ext i hi
  simp only [fieldB, BitVec.getElem_extractLsb', BitVec.getLsbD_append]
  simp (disch := omega) only [if_pos, if_neg]
  rw [← BitVec.getLsbD_eq_getElem]
  first | omega | (congr 1; omega)

/-- The opcode of a row tells the row. -/
theorem Opcode.byte_injective (o p : Opcode) (h : o.byte = p.byte) : o = p := by
  revert h
  cases o <;> cases p <;> decide

end Sys2Proof
end

