-- ==== Sys2Proof/Laws/State.lean ====
section
/-! SUPPORT. One lemma per field per update of State, so that no proof unfolds a record update. -/

namespace Sys2Proof.Machine

variable (s : State)

@[simp] theorem State.withLife_life (l : Life) : (s.withLife l).life = l := (rfl)
@[simp] theorem State.withLife_resp (l : Life) : (s.withLife l).resp = s.resp := (rfl)
@[simp] theorem State.withLife_fault (l : Life) : (s.withLife l).fault = s.fault := (rfl)
@[simp] theorem State.withLife_voice (l : Life) : (s.withLife l).voice = s.voice := (rfl)
@[simp] theorem State.withLife_out (l : Life) : (s.withLife l).out = s.out := (rfl)
@[simp] theorem State.withLife_cfg (l : Life) : (s.withLife l).cfg = s.cfg := (rfl)
@[simp] theorem State.withLife_stream (l : Life) : (s.withLife l).stream = s.stream := (rfl)
@[simp] theorem State.withLife_epoch (l : Life) : (s.withLife l).epoch = s.epoch := (rfl)

@[simp] theorem State.withResp_life (w : Word) : (s.withResp w).life = s.life := (rfl)
@[simp] theorem State.withResp_resp (w : Word) : (s.withResp w).resp = w := (rfl)
@[simp] theorem State.withResp_fault (w : Word) : (s.withResp w).fault = s.fault := (rfl)
@[simp] theorem State.withResp_voice (w : Word) : (s.withResp w).voice = s.voice := (rfl)
@[simp] theorem State.withResp_out (w : Word) : (s.withResp w).out = s.out := (rfl)
@[simp] theorem State.withResp_cfg (w : Word) : (s.withResp w).cfg = s.cfg := (rfl)
@[simp] theorem State.withResp_stream (w : Word) : (s.withResp w).stream = s.stream := (rfl)
@[simp] theorem State.withResp_epoch (w : Word) : (s.withResp w).epoch = s.epoch := (rfl)

@[simp] theorem State.withFault_life (r : FaultRecord) : (s.withFault r).life = s.life := (rfl)
@[simp] theorem State.withFault_resp (r : FaultRecord) : (s.withFault r).resp = s.resp := (rfl)
@[simp] theorem State.withFault_fault (r : FaultRecord) : (s.withFault r).fault = some r := (rfl)
@[simp] theorem State.withFault_voice (r : FaultRecord) : (s.withFault r).voice = s.voice := (rfl)
@[simp] theorem State.withFault_out (r : FaultRecord) : (s.withFault r).out = s.out := (rfl)
@[simp] theorem State.withFault_cfg (r : FaultRecord) : (s.withFault r).cfg = s.cfg := (rfl)
@[simp] theorem State.withFault_stream (r : FaultRecord) : (s.withFault r).stream = s.stream := (rfl)
@[simp] theorem State.withFault_epoch (r : FaultRecord) : (s.withFault r).epoch = s.epoch := (rfl)

@[simp] theorem State.withVoice_life (v : Voice) : (s.withVoice v).life = s.life := (rfl)
@[simp] theorem State.withVoice_resp (v : Voice) : (s.withVoice v).resp = s.resp := (rfl)
@[simp] theorem State.withVoice_fault (v : Voice) : (s.withVoice v).fault = s.fault := (rfl)
@[simp] theorem State.withVoice_voice (v : Voice) : (s.withVoice v).voice = v := (rfl)
@[simp] theorem State.withVoice_out (v : Voice) : (s.withVoice v).out = s.out := (rfl)
@[simp] theorem State.withVoice_cfg (v : Voice) : (s.withVoice v).cfg = s.cfg := (rfl)
@[simp] theorem State.withVoice_stream (v : Voice) : (s.withVoice v).stream = s.stream := (rfl)
@[simp] theorem State.withVoice_epoch (v : Voice) : (s.withVoice v).epoch = s.epoch := (rfl)

@[simp] theorem State.withOut_life (m : Memory) : (s.withOut m).life = s.life := (rfl)
@[simp] theorem State.withOut_resp (m : Memory) : (s.withOut m).resp = s.resp := (rfl)
@[simp] theorem State.withOut_fault (m : Memory) : (s.withOut m).fault = s.fault := (rfl)
@[simp] theorem State.withOut_voice (m : Memory) : (s.withOut m).voice = s.voice := (rfl)
@[simp] theorem State.withOut_out (m : Memory) : (s.withOut m).out = m := (rfl)
@[simp] theorem State.withOut_cfg (m : Memory) : (s.withOut m).cfg = s.cfg := (rfl)
@[simp] theorem State.withOut_stream (m : Memory) : (s.withOut m).stream = s.stream := (rfl)
@[simp] theorem State.withOut_epoch (m : Memory) : (s.withOut m).epoch = s.epoch := (rfl)

@[simp] theorem State.withStream_life (bs : List Byte) : (s.withStream bs).life = s.life := (rfl)
@[simp] theorem State.withStream_resp (bs : List Byte) : (s.withStream bs).resp = s.resp := (rfl)
@[simp] theorem State.withStream_fault (bs : List Byte) : (s.withStream bs).fault = s.fault := (rfl)
@[simp] theorem State.withStream_voice (bs : List Byte) : (s.withStream bs).voice = s.voice := (rfl)
@[simp] theorem State.withStream_out (bs : List Byte) : (s.withStream bs).out = s.out := (rfl)
@[simp] theorem State.withStream_cfg (bs : List Byte) : (s.withStream bs).cfg = s.cfg := (rfl)
@[simp] theorem State.withStream_stream (bs : List Byte) : (s.withStream bs).stream = bs := (rfl)
@[simp] theorem State.withStream_epoch (bs : List Byte) : (s.withStream bs).epoch = s.epoch := (rfl)

@[simp] theorem State.nextEpoch_life : (s.nextEpoch).life = s.life := (rfl)
@[simp] theorem State.nextEpoch_resp : (s.nextEpoch).resp = s.resp := (rfl)
@[simp] theorem State.nextEpoch_fault : (s.nextEpoch).fault = s.fault := (rfl)
@[simp] theorem State.nextEpoch_voice : (s.nextEpoch).voice = s.voice := (rfl)
@[simp] theorem State.nextEpoch_out : (s.nextEpoch).out = s.out := (rfl)
@[simp] theorem State.nextEpoch_cfg : (s.nextEpoch).cfg = s.cfg := (rfl)
@[simp] theorem State.nextEpoch_stream : (s.nextEpoch).stream = s.stream := (rfl)
@[simp] theorem State.nextEpoch_epoch : (s.nextEpoch).epoch = s.epoch + 1 := (rfl)

end Sys2Proof.Machine
end

