-- ==== Sys2Proof/Laws/Ops.lean ====
section
/-! SUPPORT. What each shared operation can answer, said once. -/

namespace Sys2Proof.Machine

/-- Raising a fault always answers a next state, which differs in `FAULT` alone. -/
theorem raiseFault_eq (code : FaultCode) (w0 : Word) (s : State) :
    raiseFault code w0 s = .next { s with fault := some ⟨code, w0⟩ } := rfl

/-- With no fault recorded the check is transparent. -/
@[simp] theorem whenRunning_none (s : State) (k : Result) (h : s.fault = none) : whenRunning s k = k := by
  simp [whenRunning, h]

/-- With a fault recorded nothing runs. -/
@[simp] theorem whenRunning_some (s : State) (r : FaultRecord) (k : Result) (h : s.fault = some r) :
    whenRunning s k = .fault (.stopped r) := by
  simp [whenRunning, h]

/-- A next state comes only from a state with no fault recorded. -/
theorem whenRunning_next (s t : State) (k : Result) (h : whenRunning s k = .next t) : s.fault = none ∧ k = .next t := by
  cases hf : s.fault with
  | none => exact ⟨rfl, by simpa [hf] using h⟩
  | some r => simp [hf] at h

/-- In a usable instance the lifecycle check is transparent. -/
theorem whenReady_usable (i : Instr) (s : State) (k : Result) (hf : s.fault = none) (hl : s.life = .ready) :
    whenReady i s k = k := by
  simp [whenReady, hf, hl]

/-- Outside `READY` the lifecycle check raises `F_NOT_READY`. -/
theorem whenReady_notReady (i : Instr) (s : State) (k : Result) (hf : s.fault = none) (hl : s.life ≠ .ready) :
    whenReady i s k = .next { s with fault := some ⟨.notReady, i.word0⟩ } := by
  simp [whenReady, hf, hl, raiseFault_eq]

/-- The two ways a checked command answers a next state. -/
theorem whenReady_next (i : Instr) (s t : State) (k : Result) (h : whenReady i s k = .next t) :
    s.fault = none ∧
      ((s.life = .ready ∧ k = .next t) ∨
        (s.life ≠ .ready ∧ t = { s with fault := some ⟨.notReady, i.word0⟩ })) := by
  obtain ⟨hf, hk⟩ := whenRunning_next _ _ _ h
  refine ⟨hf, ?_⟩
  by_cases hl : s.life = .ready
  · exact .inl ⟨hl, by simpa [hl] using hk⟩
  · rw [if_neg hl, raiseFault_eq] at hk
    exact .inr ⟨hl, by cases hk; rfl⟩

/-- An index in range names its slot. -/
theorem paramSlot?_lt (a : Byte) (h : a.toNat < 24) : paramSlot? a = some ⟨a.toNat, h⟩ := by simp [paramSlot?, h]

/-- An index above 23 names none. -/
theorem paramSlot?_ge (a : Byte) (h : ¬ a.toNat < 24) : paramSlot? a = none := by simp [paramSlot?, h]

/-- The index check on an index in range is transparent. -/
theorem withSlot_lt (i : Instr) (a : Byte) (s : State) (k : Fin 24 → Result) (h : a.toNat < 24) :
    withSlot i a s k = k ⟨a.toNat, h⟩ := by
  simp [withSlot, paramSlot?_lt a h]

/-- The index check on any other index raises `F_PARAM_INDEX`. -/
theorem withSlot_ge (i : Instr) (a : Byte) (s : State) (k : Fin 24 → Result) (h : ¬ a.toNat < 24) :
    withSlot i a s k = .next { s with fault := some ⟨.paramIndex, i.word0⟩ } := by
  simp [withSlot, paramSlot?_ge a h, raiseFault_eq]

/-- Everything a step can answer as a next state: a command run, an illegal word recorded, or a wait. -/
theorem step_next (s t : State) (h : step s = .next t) :
    s.fault = none ∧
      ((∃ i rest, decode s.stream = .command i rest ∧ exec i (s.withStream rest) = .next t) ∨
        (∃ w0 rest, decode s.stream = .illegal w0 rest ∧
          t = { s with stream := rest, fault := some ⟨.illegal, w0⟩ }) ∨
        (decode s.stream = .incomplete ∧ t = s)) := by
  obtain ⟨hf, hk⟩ := whenRunning_next _ _ _ h
  refine ⟨hf, ?_⟩
  unfold fetch at hk
  split at hk
  · rename_i i rest hd
    exact .inl ⟨i, rest, hd, hk⟩
  · rename_i w0 rest hd
    rw [raiseFault_eq] at hk
    exact .inr (.inl ⟨w0, rest, hd, by cases hk; rfl⟩)
  · rename_i hd
    exact .inr (.inr ⟨hd, by cases hk; rfl⟩)

end Sys2Proof.Machine
end

