-- ==== Sys2Proof/Laws/Render.lean ====
section
/-! SUPPORT. A render, said once: the registers evolve without `OUT`, and word `j` of the block is the sample of frame
`j / 2`. -/

namespace Sys2Proof.Machine

/-- The registers after `n` frames. -/
def voiceAfter (m : MathUnit) : Nat → Voice → Voice
  | 0, v => v
  | n + 1, v => voiceAfter m n (framePipeline m v).voice

/-- The sample of frame `n` counted from the registers `v`. -/
def sampleAt (m : MathUnit) (n : Nat) (v : Voice) : F32 := (framePipeline m (voiceAfter m n v)).sample

theorem voiceAfter_add (m : MathUnit) (a b : Nat) (v : Voice) :
    voiceAfter m (a + b) v = voiceAfter m b (voiceAfter m a v) := by
  induction a generalizing v with
  | zero => simp [voiceAfter]
  | succ a ih => rw [Nat.succ_add, voiceAfter, voiceAfter, ih]

theorem voiceAfter_succ (m : MathUnit) (n : Nat) (v : Voice) :
    voiceAfter m (n + 1) v = (framePipeline m (voiceAfter m n v)).voice := by
  rw [voiceAfter_add]
  rfl

theorem sampleAt_add (m : MathUnit) (a n : Nat) (v : Voice) :
    sampleAt m (a + n) v = sampleAt m n (voiceAfter m a v) := by
  rw [sampleAt, sampleAt, voiceAfter_add]

/-- A register property that every frame keeps holds after any number of frames. -/
theorem voiceAfter_induct (m : MathUnit) (P : Voice → Prop) (h : ∀ v, P v → P (framePipeline m v).voice) (n : Nat) (v : Voice)
    (hv : P v) : P (voiceAfter m n v) := by
  induction n generalizing v with
  | zero => exact hv
  | succ n ih => exact ih _ (h v hv)

/-- A render changes the registers and `OUT` alone. -/
theorem renderFrames_eq (k n : Nat) (s : State) :
    renderFrames k n s = { s with voice := voiceAfter s.cfg.math n s.voice, out := (renderFrames k n s).out } := by
  induction n generalizing k s with
  | zero => rfl
  | succ n ih =>
    rw [renderFrames, ih]
    rfl

/-- The last frame, split off. -/
theorem renderFrames_succ (k n : Nat) (s : State) : renderFrames k (n + 1) s = frame (k + n) (renderFrames k n s) := by
  induction n generalizing k s with
  | zero => rfl
  | succ n ih =>
    rw [renderFrames, ih, renderFrames, Nat.add_right_comm, Nat.add_assoc]

@[simp] theorem renderFrames_voice (k n : Nat) (s : State) :
    (renderFrames k n s).voice = voiceAfter s.cfg.math n s.voice := by rw [renderFrames_eq]

@[simp] theorem renderFrames_cfg (k n : Nat) (s : State) : (renderFrames k n s).cfg = s.cfg := by rw [renderFrames_eq]

@[simp] theorem renderFrames_fault (k n : Nat) (s : State) : (renderFrames k n s).fault = s.fault := by
  rw [renderFrames_eq]

@[simp] theorem renderFrames_life (k n : Nat) (s : State) : (renderFrames k n s).life = s.life := by
  rw [renderFrames_eq]

/-- Frames `k .. k + n - 1` write words `2k .. 2(k + n) - 1` and no other byte. -/
theorem renderFrames_readByte_other (k n : Nat) (s : State) (a : Nat) (h : a < 8 * k ∨ 8 * (k + n) ≤ a) :
    readByte (renderFrames k n s).out a = readByte s.out a := by
  induction n generalizing k s with
  | zero => rfl
  | succ n ih =>
    rw [renderFrames, ih _ _ (by omega)]
    show readByte (writeWord (writeWord s.out (2 * k) _) (2 * k + 1) _) a = _
    rw [readByte_writeWord_other _ _ _ _ (by omega), readByte_writeWord_other _ _ _ _ (by omega)]

/-- No other word is written. -/
theorem renderFrames_readWord_other (k n : Nat) (s : State) (j : Nat) (h : j < 2 * k ∨ 2 * (k + n) ≤ j) :
    readWord (renderFrames k n s).out j = readWord s.out j := by
  simp only [readWord]
  rw [renderFrames_readByte_other k n s (4 * j) (by omega), renderFrames_readByte_other k n s (4 * j + 1) (by omega),
    renderFrames_readByte_other k n s (4 * j + 2) (by omega), renderFrames_readByte_other k n s (4 * j + 3) (by omega)]

/-- Both words of frame `k + i` hold its sample. -/
theorem renderFrames_readWord (k n : Nat) (s : State) (i j : Nat) (hi : i < n) (hj : j / 2 = k + i) :
    readWord (renderFrames k n s).out j = some (sampleAt s.cfg.math i s.voice) := by
  induction n generalizing k s i with
  | zero => omega
  | succ n ih =>
    cases i with
    | zero =>
      rw [renderFrames, renderFrames_readWord_other _ _ _ _ (by omega)]
      show readWord (writeWord (writeWord s.out (2 * k) _) (2 * k + 1) _) j = _
      rcases (by omega : j = 2 * k ∨ j = 2 * k + 1) with h | h
      · rw [readWord_writeWord_other _ _ _ _ (by omega), h, readWord_writeWord_same]
        rfl
      · rw [h, readWord_writeWord_same]
        rfl
    | succ i =>
      rw [renderFrames, ih (k + 1) (frame k s) i (by omega) (by omega)]
      rfl

/-- A render keeps the canonical form of `OUT`. -/
theorem renderFrames_wf (k n : Nat) (s : State) (h : memoryWf s.out = true) :
    memoryWf (renderFrames k n s).out = true := by
  induction n generalizing k s with
  | zero => exact h
  | succ n ih => exact ih _ _ (memoryWf_writeWord _ _ _ (memoryWf_writeWord _ _ _ h))

end Sys2Proof.Machine
end

