-- ==== Sys2Proof/Laws/Exec.lean ====
section
/-! SUPPORT. The meanings with their checks passed, and what the shared register operations keep. -/

namespace Sys2Proof.Machine

/-! ### Commands in a usable instance -/

/-- `SET_PARAM` on a slot in range. -/
theorem exec_setParam_usable (a : Byte) (v : Word) (s : State) (hf : s.fault = none) (hl : s.life = .ready)
    (h : a.toNat < 24) :
    exec (.setParam a v) s = .next (s.withVoice (setParam s.cfg.math ⟨a.toNat, h⟩ v s.voice)) :=
  (whenReady_usable _ s _ hf hl).trans (withSlot_lt _ a s _ h)

/-- `NOTE_ON` with its lifecycle check passed. -/
theorem exec_noteOn_usable (n vel : Byte) (s : State) (hf : s.fault = none) (hl : s.life = .ready) :
    exec (.noteOn n vel) s =
      if inNoteDomain n && inNoteDomain vel then .next (s.withVoice (noteOnVoice n vel s.voice))
      else raiseFault .domain (Instr.noteOn n vel).word0 s :=
  whenReady_usable _ s _ hf hl

/-- `NOTE_OFF` with its lifecycle check passed. -/
theorem exec_noteOff_usable (n : Byte) (s : State) (hf : s.fault = none) (hl : s.life = .ready) :
    exec (.noteOff n) s =
      if inNoteDomain n then .next (s.withVoice (noteOffVoice s.voice))
      else raiseFault .domain (Instr.noteOff n).word0 s :=
  whenReady_usable _ s _ hf hl

/-- `RENDER` of a block the buffer holds. -/
theorem exec_render_usable (nf : Word) (s : State) (hf : s.fault = none) (hl : s.life = .ready)
    (h : nf.toNat ≤ s.cfg.outCapFrames) : exec (.render nf) s = .next (renderFrames 0 nf.toNat s) := by
  have e : exec (.render nf) s = _ := whenReady_usable (.render nf) s _ hf hl
  rw [e, if_neg (by omega)]

/-! ### What the register operations keep -/

/-- No derivation writes `P`. -/
@[simp] theorem derive_p (m : MathUnit) (i : Fin 24) (w : Word) (v : Voice) : (derive m i w v).p = v.p := by
  unfold derive
  split <;> rfl

/-- The envelope never writes its configuration. -/
theorem envStep_config (trig retrig : Bool) (e : EnvRegs) :
    (envStep trig retrig e).attInc = e.attInc ∧ (envStep trig retrig e).decInc = e.decInc ∧
      (envStep trig retrig e).relInc = e.relInc ∧ (envStep trig retrig e).susLevel = e.susLevel := by
  have gate : (envGate trig retrig e).attInc = e.attInc ∧ (envGate trig retrig e).decInc = e.decInc ∧
      (envGate trig retrig e).relInc = e.relInc ∧ (envGate trig retrig e).susLevel = e.susLevel := by
    unfold envGate
    cases trig <;> cases retrig <;> cases e.stage <;> exact ⟨rfl, rfl, rfl, rfl⟩
  have advance : ∀ d : EnvRegs, (envAdvance d).attInc = d.attInc ∧ (envAdvance d).decInc = d.decInc ∧
      (envAdvance d).relInc = d.relInc ∧ (envAdvance d).susLevel = d.susLevel := by
    intro d
    unfold envAdvance
    cases d.stage <;> dsimp only <;> (try split) <;> exact ⟨rfl, rfl, rfl, rfl⟩
  obtain ⟨a1, a2, a3, a4⟩ := advance (envGate trig retrig e)
  obtain ⟨g1, g2, g3, g4⟩ := gate
  exact ⟨a1.trans g1, a2.trans g2, a3.trans g3, a4.trans g4⟩

/-- The registers no frame writes. -/
structure FrameKeeps (v w : Voice) : Prop where
  p : w.p = v.p
  gate : w.gate = v.gate
  note : w.note = v.note
  attInc : w.env.attInc = v.env.attInc
  decInc : w.env.decInc = v.env.decInc
  relInc : w.env.relInc = v.env.relInc
  susLevel : w.env.susLevel = v.env.susLevel
  shape : w.osc.shape = v.osc.shape

/-- One frame keeps them. -/
theorem framePipeline_keeps (m : MathUnit) (v : Voice) : FrameKeeps v (framePipeline m v).voice := by
  obtain ⟨h1, h2, h3, h4⟩ := envStep_config (trigger v.gate) v.retrig v.env
  exact ⟨rfl, rfl, rfl, h1, h2, h3, h4, rfl⟩

/-- Any number of frames keeps them. -/
theorem voiceAfter_keeps (m : MathUnit) (n : Nat) (v : Voice) : FrameKeeps v (voiceAfter m n v) := by
  induction n generalizing v with
  | zero => exact ⟨rfl, rfl, rfl, rfl, rfl, rfl, rfl, rfl⟩
  | succ n ih =>
    have a := ih (framePipeline m v).voice
    have b := framePipeline_keeps m v
    exact ⟨a.p.trans b.p, a.gate.trans b.gate, a.note.trans b.note, a.attInc.trans b.attInc, a.decInc.trans b.decInc,
      a.relInc.trans b.relInc, a.susLevel.trans b.susLevel, a.shape.trans b.shape⟩

end Sys2Proof.Machine
end

