-- ==== Sys2Proof/Laws/Float.lean ====
section
/-! SUPPORT. Rounding to nearest even is monotone and exact on binary32 values, so an order fact about exact integer
values passes through every binary32 operation. -/

namespace Sys2Proof.Machine

/-! ### Rounding an integer quotient -/

/-- `nearestEven n d` is within half a unit of `n / d`, and even when it is exactly half a unit away. -/
theorem nearestEven_spec (n d : Nat) (hd : 0 < d) :
    2 * nearestEven n d * d ≤ 2 * n + d ∧ 2 * n ≤ 2 * nearestEven n d * d + d ∧
      ((2 * nearestEven n d * d = 2 * n + d ∨ 2 * n = 2 * nearestEven n d * d + d) → nearestEven n d % 2 = 0) := by
  have hq : n = d * (n / d) + n % d := (Nat.div_add_mod n d).symm
  have hr : n % d < d := Nat.mod_lt _ hd
  simp only [nearestEven]
  generalize n / d = q at *
  generalize n % d = r at *
  subst hq
  split
  · rename_i h
    have e : 2 * q * d = 2 * (d * q) := by ring
    refine ⟨by omega, by omega, fun hh => ?_⟩
    rcases h with h | ⟨_, h⟩
    · omega
    · exact h
  · rename_i h
    have e : 2 * (q + 1) * d = 2 * (d * q) + 2 * d := by ring
    refine ⟨by omega, by omega, fun hh => ?_⟩
    omega

/-- Rounding to nearest even is monotone in the quotient. -/
theorem nearestEven_mono (n1 d1 n2 d2 : Nat) (h1 : 0 < d1) (h2 : 0 < d2) (h : n1 * d2 ≤ n2 * d1) :
    nearestEven n1 d1 ≤ nearestEven n2 d2 := by
  obtain ⟨a1, a2, a3⟩ := nearestEven_spec n1 d1 h1
  obtain ⟨b1, b2, b3⟩ := nearestEven_spec n2 d2 h2
  generalize nearestEven n1 d1 = k1 at *
  generalize nearestEven n2 d2 = k2 at *
  by_contra hlt
  obtain ⟨c, rfl⟩ : ∃ c, k1 = k2 + 1 + c := ⟨k1 - (k2 + 1), by omega⟩
  have l : (2 * k2 + 1 + 2 * c) * (d1 * d2) ≤ 2 * n1 * d2 := by
    have := Nat.mul_le_mul_right d2 a1
    nlinarith
  have u : 2 * n2 * d1 ≤ (2 * k2 + 1) * (d1 * d2) := by
    have := Nat.mul_le_mul_right d1 b2
    nlinarith
  have hp : 0 < d1 * d2 := Nat.mul_pos h1 h2
  have hc : c = 0 := by
    by_contra hc
    have : 0 < c * (d1 * d2) := Nat.mul_pos (by omega) hp
    nlinarith
  subst hc
  rw [Nat.add_zero] at *
  have t1 : 2 * (k2 + 1) * d1 = 2 * n1 + d1 := by
    by_contra hne
    have : 2 * (k2 + 1) * d1 + 1 ≤ 2 * n1 + d1 := by omega
    have := Nat.mul_le_mul_right d2 this
    nlinarith
  have t2 : 2 * n2 = 2 * k2 * d2 + d2 := by
    by_contra hne
    have : 2 * n2 + 1 ≤ 2 * k2 * d2 + d2 := by omega
    have := Nat.mul_le_mul_right d1 this
    nlinarith
  have e1 := a3 (.inl t1)
  have e2 := b3 (.inr t2)
  omega

/-- An integer rounds to itself. -/
theorem nearestEven_exact (k d : Nat) (hd : 0 < d) : nearestEven (k * d) d = k := by
  simp [nearestEven, hd, Nat.mul_div_cancel _ hd]

/-! ### Rounding to a pattern -/

/-- The exponent `roundMag` scales by. -/
def roundExp (n d : Nat) : Nat := Nat.log2 (n / d) - 23

/-- The pattern before the overflow bound. -/
def roundRaw (n d : Nat) : Nat := roundExp n d * 2 ^ 23 + nearestEven n (d * 2 ^ roundExp n d)

theorem roundMag_eq (n d : Nat) : roundMag n d = min (roundRaw n d) infMag := by
  rw [roundRaw, Nat.mul_comm]
  rfl

/-- Below the scale's top the significand stays within 24 bits and a carry. -/
theorem nearestEven_scaled_le (n d : Nat) (hd : 0 < d) : nearestEven n (d * 2 ^ roundExp n d) ≤ 2 ^ 24 := by
  have hlt : n / d < 2 ^ (roundExp n d + 24) := by
    by_cases h0 : n / d = 0
    · rw [h0]; exact Nat.pos_of_neZero _
    · refine (Nat.log2_lt h0).mp ?_
      unfold roundExp
      omega
  have hn : n ≤ 2 ^ (roundExp n d + 24) * d := (Nat.div_lt_iff_lt_mul hd).mp hlt |>.le
  have he : 0 < d * 2 ^ roundExp n d := Nat.mul_pos hd (Nat.pos_of_neZero _)
  have := nearestEven_mono n (d * 2 ^ roundExp n d) (2 ^ 24) 1 he Nat.one_pos (by
    rw [Nat.mul_one, pow_add] at *
    calc n ≤ 2 ^ roundExp n d * 2 ^ 24 * d := hn
      _ = 2 ^ 24 * (d * 2 ^ roundExp n d) := by ring)
  have e := nearestEven_exact (2 ^ 24) 1 Nat.one_pos
  rw [Nat.mul_one] at e
  rwa [e] at this

/-- Above the subnormal range the significand has its leading bit. -/
theorem le_nearestEven_scaled (n d : Nat) (hd : 0 < d) (he : 0 < roundExp n d) :
    2 ^ 23 ≤ nearestEven n (d * 2 ^ roundExp n d) := by
  have h0 : n / d ≠ 0 := by
    intro h
    simp [roundExp, h] at he
  have hge : 2 ^ (roundExp n d + 23) ≤ n / d := by
    refine (Nat.le_log2 h0).mp ?_
    unfold roundExp at *
    omega
  have hn : 2 ^ (roundExp n d + 23) * d ≤ n := (Nat.le_div_iff_mul_le hd).mp hge
  have hp : 0 < d * 2 ^ roundExp n d := Nat.mul_pos hd (Nat.pos_of_neZero _)
  have := nearestEven_mono (2 ^ 23) 1 n (d * 2 ^ roundExp n d) Nat.one_pos hp (by
    rw [Nat.mul_one]
    calc 2 ^ 23 * (d * 2 ^ roundExp n d) = 2 ^ (roundExp n d + 23) * d := by rw [pow_add]; ring
      _ ≤ n := hn)
  have e := nearestEven_exact (2 ^ 23) 1 Nat.one_pos
  rw [Nat.mul_one] at e
  rwa [e] at this

theorem roundExp_mono (n1 d1 n2 d2 : Nat) (h1 : 0 < d1) (h2 : 0 < d2) (h : n1 * d2 ≤ n2 * d1) :
    roundExp n1 d1 ≤ roundExp n2 d2 := by
  have hq : n1 / d1 ≤ n2 / d2 := by
    rw [Nat.le_div_iff_mul_le h2]
    have := Nat.div_mul_le_self n1 d1
    by_contra hlt
    have : n2 * d1 < n1 / d1 * d2 * d1 := Nat.mul_lt_mul_of_pos_right (by omega) h1
    nlinarith
  unfold roundExp
  by_cases h0 : n1 / d1 = 0
  · simp [h0]
  · have h0' : n2 / d2 ≠ 0 := Nat.ne_of_gt (lt_of_lt_of_le (Nat.pos_of_ne_zero h0) hq)
    have : Nat.log2 (n1 / d1) ≤ Nat.log2 (n2 / d2) := by
      rw [Nat.le_log2 h0']
      exact (Nat.log2_self_le h0).trans hq
    omega

/-- Rounding to a pattern is monotone in the quotient. -/
theorem roundMag_mono (n1 d1 n2 d2 : Nat) (h1 : 0 < d1) (h2 : 0 < d2) (h : n1 * d2 ≤ n2 * d1) :
    roundMag n1 d1 ≤ roundMag n2 d2 := by
  rw [roundMag_eq, roundMag_eq]
  refine min_le_min_right _ ?_
  have he := roundExp_mono n1 d1 n2 d2 h1 h2 h
  rcases Nat.lt_or_eq_of_le he with hlt | heq
  · have a := nearestEven_scaled_le n1 d1 h1
    have b := le_nearestEven_scaled n2 d2 h2 (by omega)
    unfold roundRaw
    have : (roundExp n1 d1 + 1) * 2 ^ 23 ≤ roundExp n2 d2 * 2 ^ 23 := Nat.mul_le_mul_right _ hlt
    omega
  · unfold roundRaw
    rw [← heq]
    have hp : 0 < 2 ^ roundExp n1 d1 := Nat.pos_of_neZero _
    have := nearestEven_mono n1 (d1 * 2 ^ roundExp n1 d1) n2 (d2 * 2 ^ roundExp n1 d1) (Nat.mul_pos h1 hp)
      (Nat.mul_pos h2 hp) (by
        calc n1 * (d2 * 2 ^ roundExp n1 d1) = n1 * d2 * 2 ^ roundExp n1 d1 := by ring
          _ ≤ n2 * d1 * 2 ^ roundExp n1 d1 := Nat.mul_le_mul_right _ h
          _ = n2 * (d1 * 2 ^ roundExp n1 d1) := by ring)
    omega

theorem roundMag_le_infMag (n d : Nat) : roundMag n d ≤ infMag := min_le_right _ _

/-- The magnitude a pattern without its sign bit stands for, in units of `2^-149`. -/
def magOf (m : Nat) : Nat := if m / 2 ^ 23 % 256 = 0 then m % 2 ^ 23 else (2 ^ 23 + m % 2 ^ 23) * 2 ^ (m / 2 ^ 23 % 256 - 1)

/-- A finite value rounds to its own pattern. -/
theorem roundMag_magOf (m : Nat) (h : m < infMag) : roundMag (magOf m) 1 = m := by
  have hm : m / 2 ^ 23 < 255 := by unfold infMag at h; omega
  have hmod : m / 2 ^ 23 % 256 = m / 2 ^ 23 := Nat.mod_eq_of_lt (by omega)
  have hdm : 2 ^ 23 * (m / 2 ^ 23) + m % 2 ^ 23 = m := Nat.div_add_mod m (2 ^ 23)
  have hf : m % 2 ^ 23 < 2 ^ 23 := Nat.mod_lt _ (Nat.pos_of_neZero _)
  unfold magOf
  rw [hmod, roundMag_eq]
  split
  · rename_i h0
    have hexp : roundExp (m % 2 ^ 23) 1 = 0 := by
      unfold roundExp
      rw [Nat.div_one]
      by_cases hz : m % 2 ^ 23 = 0
      · rw [hz]; rfl
      · have := (Nat.log2_lt hz).mpr hf
        omega
    have : roundRaw (m % 2 ^ 23) 1 = m % 2 ^ 23 := by
      unfold roundRaw
      rw [hexp]
      have := nearestEven_exact (m % 2 ^ 23) 1 Nat.one_pos
      simpa using this
    rw [this]
    omega
  · rename_i h0
    generalize hE : m / 2 ^ 23 = E at *
    generalize m % 2 ^ 23 = f at *
    have hnz : (2 ^ 23 + f) * 2 ^ (E - 1) ≠ 0 := Nat.mul_ne_zero (by omega) (by positivity)
    have hlog : Nat.log2 ((2 ^ 23 + f) * 2 ^ (E - 1)) = E - 1 + 23 := by
      refine (Nat.log2_eq_iff hnz).mpr ⟨?_, ?_⟩
      · rw [pow_add, Nat.mul_comm]
        exact Nat.mul_le_mul_right _ (by omega)
      · rw [show E - 1 + 23 + 1 = (E - 1) + 24 by omega, pow_add, Nat.mul_comm (2 ^ (E - 1))]
        exact Nat.mul_lt_mul_of_pos_right (by omega) (by positivity)
    have hexp : roundExp ((2 ^ 23 + f) * 2 ^ (E - 1)) 1 = E - 1 := by
      unfold roundExp
      rw [Nat.div_one, hlog]
      omega
    have : roundRaw ((2 ^ 23 + f) * 2 ^ (E - 1)) 1 = m := by
      unfold roundRaw
      rw [hexp, Nat.one_mul, nearestEven_exact _ _ (by positivity)]
      omega
    rw [this]
    omega

theorem fMag_eq (x : F32) : fMag x = magOf (x.toNat % 2 ^ 31) := by
  have e : x.toNat % 2 ^ 31 / 2 ^ 23 % 256 = x.toNat / 2 ^ 23 % 256 := by omega
  have f : x.toNat % 2 ^ 31 % 2 ^ 23 = x.toNat % 2 ^ 23 := by omega
  unfold fMag magOf fExpo fFrac
  rw [e, f]

/-- A finite value's pattern lies below the infinity's. -/
theorem isFinite_iff (x : F32) : isFinite x = true ↔ x.toNat % 2 ^ 31 < infMag := by
  simp only [isFinite, fExpo, infMag, bne_iff_ne, ne_eq]
  omega

/-- The pattern of a finite value, from its magnitude. -/
theorem roundMag_fMag (x : F32) (h : isFinite x = true) : roundMag (fMag x) 1 = x.toNat % 2 ^ 31 := by
  rw [fMag_eq]
  exact roundMag_magOf _ ((isFinite_iff x).mp h)

/-! ### Signs, NaNs and packing -/

theorem fSign_eq (x : F32) : fSign x = decide (2 ^ 31 ≤ x.toNat) := by
  simp [fSign, BitVec.msb_eq_decide]

theorem packF_toNat (s : Bool) (m : Nat) (h : m ≤ infMag) : (packF s m).toNat = if s then 2 ^ 31 + m else m := by
  unfold packF infMag at *
  cases s <;> simp <;> omega

theorem fSign_packF (s : Bool) (m : Nat) (h : m ≤ infMag) : fSign (packF s m) = s := by
  rw [fSign_eq, packF_toNat s m h]
  unfold infMag at h
  cases s <;> simp; omega

theorem fKey_packF (s : Bool) (m : Nat) (h : m ≤ infMag) : fKey (packF s m) = if s then -(m : Int) else (m : Int) := by
  unfold fKey
  rw [fSign_packF s m h, packF_toNat s m h]
  unfold infMag at h
  cases s <;> simp <;> omega

theorem isNaN_eq (x : F32) : isNaN x = decide (infMag < x.toNat % 2 ^ 31) := by
  rw [Bool.eq_iff_iff]
  simp only [isNaN, fExpo, fFrac, Bool.and_eq_true, beq_iff_eq, bne_iff_ne, decide_eq_true_eq]
  unfold infMag
  omega

theorem isNaN_packF (s : Bool) (m : Nat) (h : m ≤ infMag) : isNaN (packF s m) = false := by
  rw [isNaN_eq, packF_toNat s m h]
  unfold infMag at *
  cases s <;> simp <;> omega

theorem isInf_eq (x : F32) : isInf x = decide (x.toNat % 2 ^ 31 = infMag) := by
  rw [Bool.eq_iff_iff]
  simp only [isInf, fExpo, fFrac, Bool.and_eq_true, beq_iff_eq, decide_eq_true_eq]
  unfold infMag
  omega

theorem isNaN_of_finite (x : F32) (h : isFinite x = true) : isNaN x = false := by
  have := (isFinite_iff x).mp h
  rw [isNaN_eq]
  simp only [decide_eq_false_iff_not]
  omega

theorem isInf_of_finite (x : F32) (h : isFinite x = true) : isInf x = false := by
  have := (isFinite_iff x).mp h
  rw [isInf_eq]
  simp only [decide_eq_false_iff_not]
  omega

theorem fKey_eq (x : F32) : fKey x = if fSign x then -((x.toNat % 2 ^ 31 : Nat) : Int) else ((x.toNat % 2 ^ 31 : Nat) : Int) :=
  rfl

/-! ### Order facts through rounding -/

/-- A rational at most a finite value rounds to at most that value. -/
theorem rounded_le (s : Bool) (n d : Nat) (c : F32) (hd : 0 < d) (hc : isFinite c = true)
    (h : (if s then -(n : Int) else (n : Int)) ≤ fVal c * d) : fle (packF s (roundMag n d)) c = true := by
  have hb := roundMag_le_infMag n d
  have hm := roundMag_fMag c hc
  simp only [fle, isNaN_packF _ _ hb, isNaN_of_finite c hc, Bool.not_false, Bool.true_and, decide_eq_true_eq,
    fKey_packF _ _ hb, fKey_eq c]
  rw [← hm]
  unfold fVal at h
  cases s <;> cases hs : fSign c <;> simp only [hs, if_true, if_false, Bool.false_eq_true] at h ⊢
  · exact_mod_cast roundMag_mono n d (fMag c) 1 hd Nat.one_pos (by rw [Nat.mul_one]; exact_mod_cast h)
  · have h0 : (fMag c : Int) * d ≤ 0 := by linarith [Int.natCast_nonneg n]
    have hz : fMag c = 0 := by
      have : fMag c * d = 0 := by exact_mod_cast le_antisymm h0 (by positivity)
      rcases Nat.mul_eq_zero.mp this with h | h
      · exact h
      · omega
    have hn : n = 0 := by rw [hz] at h; simpa using h
    rw [hn, hz]
    have e : roundMag 0 d = 0 := by
      have := roundMag_mono 0 d 0 1 hd Nat.one_pos (by simp)
      have z : roundMag 0 1 = 0 := by decide
      omega
    rw [e]
    decide
  · have := Int.natCast_nonneg (roundMag n d)
    have := Int.natCast_nonneg (roundMag (fMag c) 1)
    omega
  · have := roundMag_mono (fMag c) 1 n d Nat.one_pos hd (by
      rw [Nat.mul_one]
      have : (fMag c : Int) * d ≤ n := by linarith
      exact_mod_cast this)
    omega

/-- A rational at least a finite value rounds to at least that value. -/
theorem le_rounded (s : Bool) (n d : Nat) (c : F32) (hd : 0 < d) (hc : isFinite c = true)
    (h : fVal c * d ≤ (if s then -(n : Int) else (n : Int))) : fle c (packF s (roundMag n d)) = true := by
  have hb := roundMag_le_infMag n d
  have hm := roundMag_fMag c hc
  simp only [fle, isNaN_packF _ _ hb, isNaN_of_finite c hc, Bool.not_false, Bool.true_and, decide_eq_true_eq,
    fKey_packF _ _ hb, fKey_eq c]
  rw [← hm]
  unfold fVal at h
  cases s <;> cases hs : fSign c <;> simp only [hs, if_true, if_false, Bool.false_eq_true] at h ⊢
  · exact_mod_cast roundMag_mono (fMag c) 1 n d Nat.one_pos hd (by rw [Nat.mul_one]; exact_mod_cast h)
  · have := Int.natCast_nonneg (roundMag n d)
    have := Int.natCast_nonneg (roundMag (fMag c) 1)
    omega
  · have h0 : (fMag c : Int) * d ≤ 0 := by linarith [Int.natCast_nonneg n]
    have hz : fMag c = 0 := by
      have : fMag c * d = 0 := by exact_mod_cast le_antisymm h0 (by positivity)
      rcases Nat.mul_eq_zero.mp this with h | h
      · exact h
      · omega
    have hn : n = 0 := by rw [hz] at h; simp at h; omega
    rw [hn, hz]
    have e : roundMag 0 d = 0 := by
      have := roundMag_mono 0 d 0 1 hd Nat.one_pos (by simp)
      have z : roundMag 0 1 = 0 := by decide
      omega
    rw [e]
    decide
  · have := roundMag_mono n d (fMag c) 1 hd Nat.one_pos (by
      rw [Nat.mul_one]
      have : (n : Int) ≤ (fMag c : Int) * d := by linarith
      exact_mod_cast this)
    omega

/-! ### The operations on finite values -/

/-- The sum of two finite values as a rounding of the exact sum. -/
theorem addWith_finite (op : FloatOp) (a b : F32) (ha : isFinite a = true) (hb : isFinite b = true) :
    addWith op a b = roundVal (fSign a && fSign b) (fVal a + fVal b) := by
  simp [addWith, isNaN_of_finite a ha, isNaN_of_finite b hb, isInf_of_finite a ha, isInf_of_finite b hb]

theorem signedAbs (z : Bool) (v : Int) :
    (if (if v = 0 then z else decide (v < 0)) then -(v.natAbs : Int) else (v.natAbs : Int)) = v := by
  by_cases h : v = 0
  · subst h; cases z <;> simp
  · rw [if_neg h]
    by_cases hv : v < 0
    · simp only [hv, decide_true, if_true]; omega
    · simp only [hv, decide_false, Bool.false_eq_true, if_false]; omega

theorem roundVal_le (z : Bool) (v : Int) (c : F32) (hc : isFinite c = true) (h : v ≤ fVal c) :
    fle (roundVal z v) c = true := by
  refine rounded_le _ _ 1 c Nat.one_pos hc ?_
  rw [signedAbs]
  simpa using h

theorem le_roundVal (z : Bool) (v : Int) (c : F32) (hc : isFinite c = true) (h : fVal c ≤ v) :
    fle c (roundVal z v) = true := by
  refine le_rounded _ _ 1 c Nat.one_pos hc ?_
  rw [signedAbs]
  simpa using h

theorem fadd_le (a b c : F32) (ha : isFinite a = true) (hb : isFinite b = true) (hc : isFinite c = true)
    (h : fVal a + fVal b ≤ fVal c) : fle (fadd a b) c = true := by
  rw [fadd, addWith_finite _ a b ha hb]
  exact roundVal_le _ _ _ hc h

theorem le_fadd (a b c : F32) (ha : isFinite a = true) (hb : isFinite b = true) (hc : isFinite c = true)
    (h : fVal c ≤ fVal a + fVal b) : fle c (fadd a b) = true := by
  rw [fadd, addWith_finite _ a b ha hb]
  exact le_roundVal _ _ _ hc h

theorem fneg_mod (x : F32) : (fneg x).toNat % 2 ^ 31 = x.toNat % 2 ^ 31 := by
  refine Nat.eq_of_testBit_eq fun i => ?_
  rw [fneg, BitVec.toNat_xor, Nat.testBit_mod_two_pow, Nat.testBit_mod_two_pow, Nat.testBit_xor]
  by_cases hi : i < 31
  · have : (0x80000000 : F32).toNat.testBit i = false := by
      rw [show (0x80000000 : F32).toNat = 2 ^ 31 from rfl, Nat.testBit_two_pow]
      simp only [decide_eq_false_iff_not]
      omega
    rw [this, Bool.xor_false]
  · simp [hi]

theorem fSign_fneg (x : F32) : fSign (fneg x) = !fSign x := by
  simp only [fSign, fneg, BitVec.msb_xor]
  rw [show (0x80000000 : F32).msb = true from rfl, Bool.xor_true]

theorem isFinite_fneg (x : F32) : isFinite (fneg x) = isFinite x := by
  rw [Bool.eq_iff_iff, isFinite_iff, isFinite_iff, fneg_mod]

theorem fVal_fneg (x : F32) : fVal (fneg x) = -fVal x := by
  unfold fVal
  rw [fSign_fneg, fMag_eq, fneg_mod, ← fMag_eq]
  cases fSign x <;> simp

theorem fsub_le (a b c : F32) (ha : isFinite a = true) (hb : isFinite b = true) (hc : isFinite c = true)
    (h : fVal a - fVal b ≤ fVal c) : fle (fsub a b) c = true := by
  rw [fsub, addWith_finite _ a (fneg b) ha (by rwa [isFinite_fneg]), fVal_fneg]
  exact roundVal_le _ _ _ hc (by omega)

theorem le_fsub (a b c : F32) (ha : isFinite a = true) (hb : isFinite b = true) (hc : isFinite c = true)
    (h : fVal c ≤ fVal a - fVal b) : fle c (fsub a b) = true := by
  rw [fsub, addWith_finite _ a (fneg b) ha (by rwa [isFinite_fneg]), fVal_fneg]
  exact le_roundVal _ _ _ hc (by omega)

theorem fmul_finite (a b : F32) (ha : isFinite a = true) (hb : isFinite b = true) :
    fmul a b = packF (fSign a != fSign b) (roundMag (fMag a * fMag b) (2 ^ 149)) := by
  simp [fmul, isNaN_of_finite a ha, isNaN_of_finite b hb, isInf_of_finite a ha, isInf_of_finite b hb]

theorem signedMul (a b : F32) :
    (if (fSign a != fSign b) then -((fMag a * fMag b : Nat) : Int) else ((fMag a * fMag b : Nat) : Int)) =
      fVal a * fVal b := by
  unfold fVal
  cases fSign a <;> cases fSign b <;> simp

theorem fmul_le (a b c : F32) (ha : isFinite a = true) (hb : isFinite b = true) (hc : isFinite c = true)
    (h : fVal a * fVal b ≤ fVal c * 2 ^ 149) : fle (fmul a b) c = true := by
  rw [fmul_finite a b ha hb]
  refine rounded_le _ _ _ c (Nat.pos_of_neZero _) hc ?_
  rw [signedMul]
  exact_mod_cast h

theorem le_fmul (a b c : F32) (ha : isFinite a = true) (hb : isFinite b = true) (hc : isFinite c = true)
    (h : fVal c * 2 ^ 149 ≤ fVal a * fVal b) : fle c (fmul a b) = true := by
  rw [fmul_finite a b ha hb]
  refine le_rounded _ _ _ c (Nat.pos_of_neZero _) hc ?_
  rw [signedMul]
  exact_mod_cast h

theorem fdiv_finite (a b : F32) (ha : isFinite a = true) (hb : isFinite b = true) (h0 : fMag b ≠ 0) :
    fdiv a b = packF (fSign a != fSign b) (roundMag (fMag a * 2 ^ 149) (fMag b)) := by
  rw [Nat.mul_comm]
  simp [fdiv, isNaN_of_finite a ha, isNaN_of_finite b hb, isInf_of_finite a ha, isInf_of_finite b hb, h0]

theorem signedScale (a b : F32) (n : Nat) (hs : fSign b = false) :
    (if (fSign a != fSign b) then -((fMag a * n : Nat) : Int) else ((fMag a * n : Nat) : Int)) = fVal a * n := by
  unfold fVal
  rw [hs, Nat.cast_mul]
  cases fSign a
  · rfl
  · exact (neg_mul _ _).symm

/-- A quotient by a positive value, bounded above through the product. -/
theorem fdiv_le (a b c : F32) (ha : isFinite a = true) (hb : isFinite b = true) (hc : isFinite c = true)
    (hpos : 0 < fVal b) (h : fVal a * 2 ^ 149 ≤ fVal c * fVal b) : fle (fdiv a b) c = true := by
  have hs : fSign b = false := by
    by_contra hs
    simp only [Bool.not_eq_false] at hs
    unfold fVal at hpos
    rw [hs] at hpos
    simp only [if_true] at hpos
    omega
  have hm : fVal b = fMag b := by simp [fVal, hs]
  have h0 : fMag b ≠ 0 := by omega
  rw [fdiv_finite a b ha hb h0]
  refine rounded_le _ _ _ c (Nat.pos_of_ne_zero h0) hc ?_
  rw [signedScale a b _ hs, ← hm, Nat.cast_pow, Nat.cast_ofNat]
  exact h

/-- A quotient by a positive value, bounded below through the product. -/
theorem le_fdiv (a b c : F32) (ha : isFinite a = true) (hb : isFinite b = true) (hc : isFinite c = true)
    (hpos : 0 < fVal b) (h : fVal c * fVal b ≤ fVal a * 2 ^ 149) : fle c (fdiv a b) = true := by
  have hs : fSign b = false := by
    by_contra hs
    simp only [Bool.not_eq_false] at hs
    unfold fVal at hpos
    rw [hs] at hpos
    simp only [if_true] at hpos
    omega
  have hm : fVal b = fMag b := by simp [fVal, hs]
  have h0 : fMag b ≠ 0 := by omega
  rw [fdiv_finite a b ha hb h0]
  refine le_rounded _ _ _ c (Nat.pos_of_ne_zero h0) hc ?_
  rw [signedScale a b _ hs, ← hm, Nat.cast_pow, Nat.cast_ofNat]
  exact h

/-! ### Comparisons and values -/

/-- Magnitudes and patterns are ordered alike. -/
theorem magOf_le_iff (m1 m2 : Nat) (h1 : m1 < infMag) (h2 : m2 < infMag) : magOf m1 ≤ magOf m2 ↔ m1 ≤ m2 := by
  have fwd : ∀ a b, a < infMag → b < infMag → magOf a ≤ magOf b → a ≤ b := fun a b ha hb h => by
    have := roundMag_mono (magOf a) 1 (magOf b) 1 Nat.one_pos Nat.one_pos (by simpa using h)
    rwa [roundMag_magOf a ha, roundMag_magOf b hb] at this
  refine ⟨fwd m1 m2 h1 h2, fun h => ?_⟩
  by_contra hc
  have := fwd m2 m1 h2 h1 (by omega)
  have e : m1 = m2 := by omega
  subst e
  exact hc le_rfl

theorem magOf_eq_zero (m : Nat) (h : m < infMag) : magOf m = 0 ↔ m = 0 := by
  have := magOf_le_iff m 0 h (by decide)
  have z : magOf 0 = 0 := by decide
  omega

/-- On finite values `<=` is the order of the exact values. -/
theorem fle_iff (a b : F32) (ha : isFinite a = true) (hb : isFinite b = true) : fle a b = true ↔ fVal a ≤ fVal b := by
  have la := (isFinite_iff a).mp ha
  have lb := (isFinite_iff b).mp hb
  have hab := magOf_le_iff _ _ la lb
  have hba := magOf_le_iff _ _ lb la
  have za := magOf_eq_zero _ la
  have zb := magOf_eq_zero _ lb
  simp only [fle, isNaN_of_finite a ha, isNaN_of_finite b hb, Bool.not_false, Bool.true_and, decide_eq_true_eq]
  unfold fKey fVal
  rw [fMag_eq, fMag_eq]
  generalize a.toNat % 2 ^ 31 = p at *
  generalize b.toNat % 2 ^ 31 = q at *
  generalize magOf p = P at *
  generalize magOf q = Q at *
  cases fSign a <;> cases fSign b <;> simp only [if_true, if_false, Bool.false_eq_true] <;> omega

/-- `<` is `<=` turned round, on values that are no NaN. -/
theorem flt_iff (a b : F32) (ha : isFinite a = true) (hb : isFinite b = true) : flt a b = true ↔ fVal a < fVal b := by
  have h := fle_iff b a hb ha
  simp only [flt, fle, isNaN_of_finite a ha, isNaN_of_finite b hb, Bool.not_false, Bool.true_and,
    decide_eq_true_eq] at h ⊢
  omega

/-- A value between two finite ones is finite. -/
theorem isFinite_of_fle (x lo hi : F32) (hlo : isFinite lo = true) (hhi : isFinite hi = true) (h1 : fle lo x = true)
    (h2 : fle x hi = true) : isFinite x = true := by
  have l := (isFinite_iff lo).mp hlo
  have u := (isFinite_iff hi).mp hhi
  rw [isFinite_iff]
  simp only [fle, Bool.and_eq_true, Bool.not_eq_true', decide_eq_true_eq] at h1 h2
  unfold fKey at h1 h2
  cases hs : fSign x
  · rw [hs] at h2
    simp only [Bool.false_eq_true, if_false] at h2
    have := h2.2
    split at this <;> omega
  · rw [hs] at h1
    simp only [if_true] at h1
    have := h1.2
    split at this <;> omega

/-- `<=` on values that are no NaN is total. -/
theorem fle_total (a b : F32) (ha : isNaN a = false) (hb : isNaN b = false) (h : fle a b = false) : flt b a = true := by
  simp only [fle, flt, ha, hb, Bool.not_false, Bool.true_and, decide_eq_false_iff_not, decide_eq_true_eq] at h ⊢
  omega

theorem fle_of_flt (a b : F32) (h : flt a b = true) : fle a b = true := by
  simp only [fle, flt, Bool.and_eq_true, decide_eq_true_eq] at h ⊢
  exact ⟨h.1, by omega⟩

theorem fle_trans (a b c : F32) (h1 : fle a b = true) (h2 : fle b c = true) : fle a c = true := by
  simp only [fle, Bool.and_eq_true, decide_eq_true_eq] at h1 h2 ⊢
  exact ⟨⟨h1.1.1, h2.1.2⟩, by omega⟩

theorem isNaN_of_fle_left (a b : F32) (h : fle a b = true) : isNaN a = false := by
  simp only [fle, Bool.and_eq_true, Bool.not_eq_true'] at h
  exact h.1.1

theorem isNaN_of_fle_right (a b : F32) (h : fle a b = true) : isNaN b = false := by
  simp only [fle, Bool.and_eq_true, Bool.not_eq_true'] at h
  exact h.1.2

/-- `fclamp` lands between its bounds, even on a NaN. -/
theorem fclamp_range (x lo hi : F32) (h : fle lo hi = true) :
    fle lo (fclamp x lo hi) = true ∧ fle (fclamp x lo hi) hi = true := by
  have nlo := isNaN_of_fle_left _ _ h
  have nhi := isNaN_of_fle_right _ _ h
  have rlo : fle lo lo = true := by simp [fle, nlo]
  have rhi : fle hi hi = true := by simp [fle, nhi]
  unfold fclamp fmin fmax
  by_cases h1 : flt lo x = true
  · rw [if_pos h1]
    by_cases h2 : flt x hi = true
    · rw [if_pos h2]
      exact ⟨fle_of_flt _ _ h1, fle_of_flt _ _ h2⟩
    · rw [if_neg h2]
      exact ⟨h, rhi⟩
  · rw [if_neg h1]
    by_cases h2 : flt lo hi = true
    · rw [if_pos h2]
      exact ⟨rlo, h⟩
    · rw [if_neg h2]
      exact ⟨h, rhi⟩

/-! ### Integers and magnitudes -/

theorem f32OfInt_nonneg (n : Nat) : f32OfInt n = packF false (roundMag (n * 2 ^ 149) 1) := by
  rw [f32OfInt, Int.natAbs_natCast, Nat.mul_comm, show decide ((n : Int) < 0) = false by simp]

theorem fabs_toNat (x : F32) : (fabs x).toNat = x.toNat % 2 ^ 31 := by
  rw [fabs, BitVec.toNat_and, show (0x7FFFFFFF : F32).toNat = 2 ^ 31 - 1 from rfl, Nat.and_two_pow_sub_one_eq_mod]

theorem isFinite_fabs (x : F32) : isFinite (fabs x) = isFinite x := by
  rw [Bool.eq_iff_iff, isFinite_iff, isFinite_iff, fabs_toNat, Nat.mod_mod]

theorem fVal_fabs (x : F32) : fVal (fabs x) = |fVal x| := by
  have hs : fSign (fabs x) = false := by
    rw [fSign_eq, fabs_toNat]
    simp only [decide_eq_false_iff_not]
    omega
  have hm : fMag (fabs x) = fMag x := by rw [fMag_eq, fMag_eq, fabs_toNat, Nat.mod_mod]
  unfold fVal
  rw [hs, hm]
  cases fSign x <;> simp

/-! ### Multiplication by one -/

/-- Rounding depends on the ratio alone. -/
theorem roundMag_scale (k n d : Nat) (hk : 0 < k) (hd : 0 < d) : roundMag (k * n) (k * d) = roundMag n d := by
  apply le_antisymm
  · exact roundMag_mono _ _ _ _ (by positivity) hd (le_of_eq (by ring))
  · exact roundMag_mono _ _ _ _ hd (by positivity) (le_of_eq (by ring))

/-- A finite pattern from its sign and its magnitude. -/
theorem packF_fMag (x : F32) (h : isFinite x = true) : packF (fSign x) (roundMag (fMag x) 1) = x := by
  have hl := (isFinite_iff x).mp h
  have hx := x.isLt
  refine BitVec.eq_of_toNat_eq ?_
  rw [roundMag_fMag x h, packF_toNat _ _ (le_of_lt hl), fSign_eq]
  by_cases hh : 2 ^ 31 ≤ x.toNat
  · rw [if_pos (by simpa using hh)]
    omega
  · rw [if_neg (by simpa using hh)]
    omega

/-- `1.0 * x = x` for a finite `x`. -/
theorem one_fmul (x : F32) (h : isFinite x = true) : fmul 0x3F800000 x = x := by
  rw [fmul_finite _ _ (by decide) h, show fMag 0x3F800000 = 2 ^ 149 by decide, show fSign 0x3F800000 = false by decide]
  have e := roundMag_scale (2 ^ 149) (fMag x) 1 (by positivity) Nat.one_pos
  rw [Nat.mul_one] at e
  rw [e, Bool.false_bne, packF_fMag x h]

end Sys2Proof.Machine
end

