-- ==== Sys2Proof/Laws/PerInstr.lean ====
section
/-! SUPPORT. For every command: its first word matches its own row of the opcode map under the row's mask, and its
encoding is one word, or two where the row has an operand word (30_encoding.md R71, R72, R75). -/

namespace Sys2Proof.Laws.Layout

/-- The first word matches the row, and the length is the row's. -/
def Statement (i : Instr) : Prop :=
  i.opcode.selects i.word0 = true ∧ (encode i).length = (if i.opcode.format.hasOperand then 8 else 4)

/-- A first word matches its row when the bits its format fixes are those of the opcode. -/
theorem selects_of_fields (o : Opcode) (a b : Byte) (ha : o.format = .f0 ∨ o.format = .fw → a = 0)
    (hb : o.format ≠ .fab → b = 0) : o.selects ((0 : Byte) ++ b ++ a ++ o.byte) = true := by
  rw [Opcode.selects, beq_iff_eq]
  have key : ∀ (x y z : Byte) (m1 m2 : Byte), ((0 : Byte) ++ x ++ y ++ z) &&& ((0xFF : Byte) ++ m1 ++ m2 ++ (0xFF : Byte)) =
      (0 : Byte) ++ (x &&& m1) ++ (y &&& m2) ++ z := by
    intro x y z m1 m2
    rw [BitVec.and_append, BitVec.and_append, BitVec.and_append, show (0 : Byte) &&& 0xFF = 0 by decide,
      show z &&& 0xFF = z from BitVec.and_allOnes]
  have z0 : ∀ x : Byte, x &&& 0 = 0 := fun _ => BitVec.and_zero
  have zext : ∀ z : Byte, (0 : Byte) ++ (0 : Byte) ++ (0 : Byte) ++ z = z.setWidth 32 := by
    intro z
    ext i hi
    simp only [BitVec.getElem_append, BitVec.getElem_setWidth]
    split
    · exact BitVec.getLsbD_eq_getElem .. |>.symm
    · rw [BitVec.getLsbD_of_ge _ _ (by omega)]
      repeat' split
      all_goals simp
  rw [Opcode.pattern, ← zext]
  cases hf : o.format with
  | f0 => rw [ha (.inl hf), hb (by simp [hf])]; exact key 0 0 _ 0xFF 0xFF
  | fw => rw [ha (.inr hf), hb (by simp [hf])]; exact key 0 0 _ 0xFF 0xFF
  | fa => rw [hb (by simp [hf])]; exact (key 0 a _ 0xFF 0).trans (by rw [z0]; rfl)
  | faw => rw [hb (by simp [hf])]; exact (key 0 a _ 0xFF 0).trans (by rw [z0]; rfl)
  | fab => exact (key b a _ 0 0).trans (by rw [z0, z0])

theorem init (ch : Byte) (rate : Word) : Statement (.init ch rate) :=
  ⟨selects_of_fields .init ch 0 (fun h => absurd h (by decide)) (fun _ => rfl), rfl⟩
theorem teardown : Statement .teardown := ⟨selects_of_fields .teardown 0 0 (fun _ => rfl) (fun _ => rfl), rfl⟩
theorem reset : Statement .reset := ⟨selects_of_fields .reset 0 0 (fun _ => rfl) (fun _ => rfl), rfl⟩
theorem resume : Statement .resume := ⟨selects_of_fields .resume 0 0 (fun _ => rfl) (fun _ => rfl), rfl⟩
theorem suspend : Statement .suspend := ⟨selects_of_fields .suspend 0 0 (fun _ => rfl) (fun _ => rfl), rfl⟩
theorem setParam (i : Byte) (v : Word) : Statement (.setParam i v) :=
  ⟨selects_of_fields .setParam i 0 (fun h => absurd h (by decide)) (fun _ => rfl), rfl⟩
theorem getParam (i : Byte) : Statement (.getParam i) :=
  ⟨selects_of_fields .getParam i 0 (fun h => absurd h (by decide)) (fun _ => rfl), rfl⟩
theorem getParamStr (i : Byte) (v : Word) : Statement (.getParamStr i v) :=
  ⟨selects_of_fields .getParamStr i 0 (fun h => absurd h (by decide)) (fun _ => rfl), rfl⟩
theorem getParamBmp (i : Byte) (v : Word) : Statement (.getParamBmp i v) :=
  ⟨selects_of_fields .getParamBmp i 0 (fun h => absurd h (by decide)) (fun _ => rfl), rfl⟩
theorem noteOn (n vel : Byte) : Statement (.noteOn n vel) :=
  ⟨selects_of_fields .noteOn n vel (fun h => absurd h (by decide)) (fun h => absurd h (by decide)), rfl⟩
theorem noteOff (n : Byte) : Statement (.noteOff n) :=
  ⟨selects_of_fields .noteOff n 0 (fun h => absurd h (by decide)) (fun _ => rfl), rfl⟩
theorem allNoteOff : Statement .allNoteOff := ⟨selects_of_fields .allNoteOff 0 0 (fun _ => rfl) (fun _ => rfl), rfl⟩
theorem pitchBend (pb : BitVec 16) : Statement (.pitchBend pb) :=
  ⟨selects_of_fields .pitchBend _ _ (fun h => absurd h (by decide)) (fun h => absurd h (by decide)), rfl⟩
theorem channelPressure (pr : Byte) : Statement (.channelPressure pr) :=
  ⟨selects_of_fields .channelPressure pr 0 (fun h => absurd h (by decide)) (fun _ => rfl), rfl⟩
theorem aftertouch (n val : Byte) : Statement (.aftertouch n val) :=
  ⟨selects_of_fields .aftertouch n val (fun h => absurd h (by decide)) (fun h => absurd h (by decide)), rfl⟩
theorem loadPreset (pi : Byte) : Statement (.loadPreset pi) :=
  ⟨selects_of_fields .loadPreset pi 0 (fun h => absurd h (by decide)) (fun _ => rfl), rfl⟩
theorem getPresetIndex : Statement .getPresetIndex :=
  ⟨selects_of_fields .getPresetIndex 0 0 (fun _ => rfl) (fun _ => rfl), rfl⟩
theorem getPresetName (pi : Byte) : Statement (.getPresetName pi) :=
  ⟨selects_of_fields .getPresetName pi 0 (fun h => absurd h (by decide)) (fun _ => rfl), rfl⟩
theorem render (nf : Word) : Statement (.render nf) :=
  ⟨selects_of_fields .render 0 0 (fun _ => rfl) (fun _ => rfl), rfl⟩

end Sys2Proof.Laws.Layout
end

