-- ==== Sys2Proof/Laws/Run.lean ====
section
/-! SUPPORT. What a run and its observation (46_lifecycle_host.md R246) can be, said once, and that the run of a command
list is the run of the commands' bytes. -/

namespace Sys2Proof.Machine

/-! ### No command reads the bytes behind it -/

/-- An outcome with the stream of its next state replaced. -/
def restream (bs : List Byte) : Result → Result
  | .next t => .next (t.withStream bs)
  | .fault r => .fault r
  | .refused r => .refused r

/-- The fault check does not read the stream. -/
theorem whenRunning_restream (s : State) (bs : List Byte) (k l : Result) (h : l = restream bs k) :
    whenRunning (s.withStream bs) l = restream bs (whenRunning s k) := by
  subst h
  unfold whenRunning
  rw [State.withStream_fault]
  cases s.fault <;> rfl

/-- The lifecycle check does not read the stream. -/
theorem whenReady_restream (i : Instr) (s : State) (bs : List Byte) (k l : Result) (h : l = restream bs k) :
    whenReady i (s.withStream bs) l = restream bs (whenReady i s k) := by
  refine whenRunning_restream s bs _ _ ?_
  rw [State.withStream_life, h]
  split <;> rfl

/-- The index check does not read the stream. -/
theorem withSlot_restream (i : Instr) (a : Byte) (s : State) (bs : List Byte) (k l : Fin 24 → Result)
    (h : ∀ n, l n = restream bs (k n)) : withSlot i a (s.withStream bs) l = restream bs (withSlot i a s k) := by
  unfold withSlot
  split
  · rfl
  · exact h _

/-- The frames of a render do not read the stream. -/
theorem renderFrames_withStream (k n : Nat) (s : State) (bs : List Byte) :
    renderFrames k n (s.withStream bs) = (renderFrames k n s).withStream bs := by
  induction n generalizing k s with
  | zero => rfl
  | succ n ih => exact ih (k + 1) (frame k s)

/-- A command does the same whatever bytes stand behind it in the stream. -/
theorem exec_withStream (i : Instr) (s : State) (bs : List Byte) :
    exec i (s.withStream bs) = restream bs (exec i s) := by
  cases i with
  | init ch rate =>
    refine whenRunning_restream s bs _ _ ?_
    rw [State.withStream_life]
    cases s.life
    · show initUninit ch rate (s.withStream bs) = restream bs (initUninit ch rate s)
      unfold initUninit
      split
      · rfl
      · split <;> rfl
    · rfl
    · rfl
  | teardown =>
    refine whenRunning_restream s bs _ _ ?_
    rw [State.withStream_life]
    cases s.life <;> rfl
  | reset => exact whenReady_restream _ s bs _ _ rfl
  | resume => exact whenReady_restream _ s bs _ _ rfl
  | suspend => exact whenReady_restream _ s bs _ _ rfl
  | setParam a v => exact whenReady_restream _ s bs _ _ (withSlot_restream _ a s bs _ _ fun _ => rfl)
  | getParam a => exact whenReady_restream _ s bs _ _ (withSlot_restream _ a s bs _ _ fun _ => rfl)
  | getParamStr a v => exact whenReady_restream _ s bs _ _ (withSlot_restream _ a s bs _ _ fun _ => rfl)
  | getParamBmp a v => exact whenReady_restream _ s bs _ _ (withSlot_restream _ a s bs _ _ fun _ => rfl)
  | noteOn n vel => exact whenReady_restream _ s bs _ _ (by split <;> rfl)
  | noteOff n => exact whenReady_restream _ s bs _ _ (by split <;> rfl)
  | allNoteOff =>
    refine whenReady_restream _ s bs _ _ ?_
    rw [State.withStream_cfg]
    split <;> rfl
  | pitchBend pb => exact whenReady_restream _ s bs _ _ rfl
  | channelPressure pr => exact whenReady_restream _ s bs _ _ rfl
  | aftertouch n val => exact whenReady_restream _ s bs _ _ rfl
  | loadPreset pi => exact whenReady_restream _ s bs _ _ rfl
  | getPresetIndex => exact whenReady_restream _ s bs _ _ rfl
  | getPresetName pi => exact whenReady_restream _ s bs _ _ rfl
  | render nf =>
    refine whenReady_restream _ s bs _ _ ?_
    rw [State.withStream_cfg, renderFrames_withStream]
    split <;> rfl

end Sys2Proof.Machine

namespace Sys2Proof.Safety

open Sys2Proof Sys2Proof.Machine

/-- A run shows the host a final state only where everything fetched before it left one. -/
theorem RunEnd.after_final (d : Decoded) (t : State) (e : RunEnd) (o : Observation) (h : e.after d t = .final o) :
    ∃ p, e = .final p ∧ o.final = p.final := by
  cases e <;> cases d <;> simp only [RunEnd.after, reduceCtorEq, RunEnd.final.injEq] at h
  · exact ⟨_, rfl, h ▸ rfl⟩
  · exact ⟨_, rfl, h ▸ rfl⟩
  · exact ⟨_, rfl, h ▸ rfl⟩

/-- A faulted state is never a final state (R246). -/
theorem observe_final_faultFree (n : Nat) (s : State) (o : Observation) (h : observe n s = .final o) :
    FaultFree o.final := by
  induction n generalizing s o with
  | zero =>
    cases hf : s.fault with
    | none => simp only [observe, hf, RunEnd.final.injEq] at h; exact h ▸ hf
    | some r => simp [observe, hf] at h
  | succ n ih =>
    rw [observe] at h
    split at h
    · obtain ⟨p, hp, ho⟩ := RunEnd.after_final _ _ _ _ h
      exact ho ▸ ih _ _ hp
    · cases h
    · cases h

/-- The final state of a command list has no fault recorded. -/
theorem runAll_faultFree (cmds : List Instr) (s t : State) (h : runAll cmds s = .next t) : FaultFree t := by
  induction cmds generalizing s with
  | nil => obtain ⟨hf, h⟩ := whenRunning_next _ _ _ h; cases h; exact hf
  | cons i rest ih =>
    rw [runAll] at h
    split at h
    · exact ih _ h
    · cases h
    · cases h

/-- The step of a run that fetches a command, runs it and shows the host what it answered or rendered. -/
theorem observe_command (n : Nat) (s t : State) (i : Instr) (rest : List Byte) (hf : s.fault = none)
    (hd : decode s.stream = .command i rest) (he : exec i (s.withStream rest) = .next t) :
    observe (n + 1) s = (observe n t).after (.command i rest) t := by
  have hs : step s = .next t := by
    refine (whenRunning_none s _ hf).trans ?_
    rw [fetch, hd]
    exact he
  rw [observe, hs, fetch, hd]

/-- A command list that runs to `t` is a run of the commands' bytes that ends in `t`, with the bytes behind them not
consumed. The premise is the round trip of the encoding. -/
theorem observe_encoded (hd : ∀ (i : Instr) (rest : List Byte), decode (encode i ++ rest) = .command i rest)
    (cmds : List Instr) (rest : List Byte) (s t : State) (h : runAll cmds s = .next t) :
    ∃ o, observe cmds.length (s.withStream (cmds.flatMap encode ++ rest)) = .final o ∧ o.final = t.withStream rest := by
  induction cmds generalizing s with
  | nil =>
    obtain ⟨hf, h⟩ := whenRunning_next _ _ _ h
    cases h
    exact ⟨⟨[], [], t.withStream rest⟩, by simp [observe, hf], rfl⟩
  | cons i cmds ih =>
    rw [runAll] at h
    split at h
    · rename_i u hu
      obtain ⟨o, ho, hof⟩ := ih u h
      have hf : s.fault = none := by
        cases hf : s.fault with
        | none => rfl
        | some r => cases i <;> cases (whenRunning_some s r _ hf).symm.trans hu
      have he : exec i (s.withStream (cmds.flatMap encode ++ rest)) = .next (u.withStream (cmds.flatMap encode ++ rest)) := by
        rw [exec_withStream, hu]
        rfl
      have hs : decode ((i :: cmds).flatMap encode ++ rest) = .command i (cmds.flatMap encode ++ rest) := by
        rw [List.flatMap_cons, List.append_assoc]
        exact hd i _
      refine ⟨o.after i (u.withStream (cmds.flatMap encode ++ rest)), ?_, hof⟩
      rw [List.length_cons, observe_command cmds.length (s.withStream ((i :: cmds).flatMap encode ++ rest)) _ i _ hf hs he, ho]
      rfl
    · cases h
    · cases h

end Sys2Proof.Safety
end

