-- ==== Sys2Proof/Tests/Slice0.lean ====
section
/-! SUPPORT. Tests against the vectors of 95_test_vectors.md (named in each comment), the well-formedness smoke, and
for each obligation with hypotheses a witness that meets them. -/

namespace Sys2Proof.Tests

-- Each test waits for the kernel; run in turn they need no thread each.
set_option Elab.async false

open Sys2Proof Sys2Proof.Machine Sys2Proof.Safety

/-! ### Helpers -/

/-- The next state of an outcome, if it is one. -/
def nextOf (r : Result) : Option State :=
  match r with
  | .next t => some t
  | .fault _ => none
  | .refused _ => none

/-- A usable instance with the defaults of `LOAD_DEFAULTS`: state S0 of 95_test_vectors.md, V-LIFE-1. -/
def ready : State := { State.reset with life := .ready, voice := loadDefaults .correctlyRounded }

/-- A failed instance. -/
def failed : State := { State.reset with life := .failed }

/-- `ready` with its registers changed. -/
def readyWith (f : Voice → Voice) : State := { ready with voice := f ready.voice }

/-- The setup of program P1 before its `RENDER`: `ATTACK = 0`, then note 69 at velocity 127. -/
def p1 : State := readyWith fun v => noteOnVoice 69 127 (setParam .correctlyRounded 4 0 v)

/-- A one-word command as the host delivers it. -/
def one (w0 : Word) : List Byte := wordBytes w0

/-- A two-word command as the host delivers it. -/
def two (w0 w1 : Word) : List Byte := wordBytes w0 ++ wordBytes w1

/-- The envelope of V-ENV-1: every increment `1/48`, sustain 0.5. -/
def env1 (stage : EnvStage) (level l0 : F32) (n : Word) : EnvRegs :=
  ⟨stage, level, l0, n, 0x3CAAAAAB, 0x3CAAAAAB, 0x3CAAAAAB, 0x3F000000⟩

/-! ### Well-formedness: one ill-formed term per check (30_encoding.md R73) -/

theorem test_wf_setParam : (Instr.setParam 24 0).wellFormed = false := by decide
theorem test_wf_getParam : (Instr.getParam 24).wellFormed = false := by decide
theorem test_wf_getParamStr : (Instr.getParamStr 24 0).wellFormed = false := by decide
theorem test_wf_getParamBmp : (Instr.getParamBmp 24 0).wellFormed = false := by decide
theorem test_wf_noteOn_note : (Instr.noteOn 128 0).wellFormed = false := by decide
theorem test_wf_noteOn_velocity : (Instr.noteOn 0 128).wellFormed = false := by decide
theorem test_wf_noteOff : (Instr.noteOff 128).wellFormed = false := by decide
theorem test_wf_accepts : (Instr.setParam 23 0).wellFormed = true ∧ (Instr.noteOn 127 127).wellFormed = true := by decide

/-! ### Decoding: a word of every constructor, V-ENC-1 -/

theorem test_decode_init : decode (two 0x00000201 0x0000BB80) = .command (.init 2 48000) [] := by decide
theorem test_decode_teardown : decode (one 0x00000002) = .command .teardown [] := by decide
theorem test_decode_reset : decode (one 0x00000003) = .command .reset [] := by decide
theorem test_decode_resume : decode (one 0x00000004) = .command .resume [] := by decide
theorem test_decode_suspend : decode (one 0x00000005) = .command .suspend [] := by decide
theorem test_decode_setParam : decode (two 0x00000210 0xFFFFFFFF) = .command (.setParam 2 0xFFFFFFFF) [] := by decide
theorem test_decode_getParam : decode (one 0x00001411) = .command (.getParam 20) [] := by decide
theorem test_decode_getParamStr : decode (two 0x00000112 0x00000001) = .command (.getParamStr 1 1) [] := by decide
theorem test_decode_getParamBmp : decode (two 0x00000013 0x0000003C) = .command (.getParamBmp 0 60) [] := by decide
theorem test_decode_noteOn : decode (one 0x007F3C20) = .command (.noteOn 60 127) [] := by decide
theorem test_decode_noteOff : decode (one 0x00003C21) = .command (.noteOff 60) [] := by decide
theorem test_decode_allNoteOff : decode (one 0x00000022) = .command .allNoteOff [] := by decide
theorem test_decode_pitchBend : decode (one 0x00200023) = .command (.pitchBend 0x2000) [] := by decide
theorem test_decode_channelPressure : decode (one 0x00006424) = .command (.channelPressure 100) [] := by decide
theorem test_decode_aftertouch : decode (one 0x005A3C25) = .command (.aftertouch 60 90) [] := by decide
theorem test_decode_loadPreset : decode (one 0x00000330) = .command (.loadPreset 3) [] := by decide
theorem test_decode_getPresetIndex : decode (one 0x00000031) = .command .getPresetIndex [] := by decide
theorem test_decode_getPresetName : decode (one 0x00000032) = .command (.getPresetName 0) [] := by decide
theorem test_decode_render : decode (two 0x00000040 0x000012C0) = .command (.render 4800) [] := by decide

/-- Bytes in the order of 20_memory.md R54: the least significant byte of `W0` comes first, and what follows the command
is left. -/
theorem test_decode_bytes : decode [0x20, 0x3C, 0x7F, 0x00, 0x99] = .command (.noteOn 60 127) [0x99] := by decide

/-- V-ENC-2: every word of the list is illegal. -/
theorem test_decode_illegal :
    [(0x00000000 : Word), 0x00000106, 0x000000FF, 0x017F3C20, 0xFFFF3C23, 0x00010022, 0x00000103, 0x00000140, 0x00FF0211,
      0x00010210].all (fun w => decode (one w) == .illegal w []) = true := by decide

/-- R78's example, encoded. -/
theorem test_encode_noteOn : encode (.noteOn 60 127) = [0x20, 0x3C, 0x7F, 0x00] := by decide

/-- R78's second example, encoded. -/
theorem test_encode_setParam : encode (.setParam 2 0xFFFFFFFF) = [0x10, 0x02, 0x00, 0x00, 0xFF, 0xFF, 0xFF, 0xFF] := by
  decide

/-- The table's numbering: bit 0 is the least significant bit of `W0`, and `W1` counts on from bit 32. -/
theorem test_tableWord :
    decodeTableWord 64 0x0000BB8000000201 = some (.init 2 48000) ∧ decodeTableWord 32 0x007F3C20 = some (.noteOn 60 127) ∧
      decodeTableWord 32 0x40 = some (.render 0) ∧ decodeTableWord 32 0x00000106 = none := by decide

/-- The delivered word is the one the next step runs. -/
theorem test_withFetchWord :
    (nextOf (step (State.reset.withFetchWord 64 0x0000AC4400000201))).map (fun t => (t.life, t.resp, t.stream)) =
      some (.failed, 0xFFFFFFFC, []) := by decide

/-! ### Lifecycle -/

/-- V-LIFE-1 with 10_state.md R36: `INIT 48000, 2`. -/
theorem test_init_ready :
    (nextOf (exec (.init 2 48000) State.reset)).map (fun t => (t.life, t.resp, t.voice.note.resQ, t.voice.env.susLevel)) =
      some (.ready, 0, 0x3F3504F3, 0x3F333333) := by decide +kernel

/-- V-LIFE-2: the four failures, the rate checked first. -/
theorem test_init_failures :
    [Instr.init 2 44100, .init 1 48000, .init 1 44100, .init 0 48000].map
        (fun i => (nextOf (exec i State.reset)).map fun t => (t.life, t.resp)) =
      [some (.failed, 0xFFFFFFFC), some (.failed, 0xFFFFFFF8), some (.failed, 0xFFFFFFFC), some (.failed, 0xFFFFFFF8)] := by
  decide +kernel

/-- V-LIFE-3: `TEARDOWN` from `READY`, `FAILED` and `UNINIT`. -/
theorem test_teardown :
    (nextOf (exec .teardown ready)).map State.life = some .uninit ∧
      nextOf (exec .teardown failed) = some failed ∧ nextOf (exec .teardown State.reset) = some State.reset := by
  decide +kernel

/-- V-RND-5: `RESET` while sounding clears the oscillator and the gate, and keeps the envelope and the filter memory. -/
theorem test_reset_default :
    (nextOf (exec .reset (readyWith fun v => { v with
        gate := 1, retrig := true, env := env1 .decay 0x3F7E9D03 0x3F800000 1, osc := ⟨0x3F6AAAA2, .rect, 0x3F000000⟩ }))).map
      (fun t => (t.voice.osc, t.voice.gate, t.voice.retrig, t.voice.env.stage, t.voice.env.level)) =
      some (⟨0, .saw, 0x3F000000⟩, 0, false, .decay, 0x3F7E9D03) := by decide +kernel

/-- V-RND-6: with `CFG_RESET_CLEARS_VOICE` it also sets the envelope idle and clears the filter memory. -/
theorem test_reset_clears :
    (nextOf (exec .reset { readyWith (fun v => { v with
        env := env1 .decay 0x3F7E9D03 0x3F800000 1, flt := ⟨1, 2, 3, 4, 5, 0xBDB600B0, 0xBDA612E8⟩ }) with
        cfg := { Config.default with resetClearsVoice := true } })).map
      (fun t => (t.voice.env.stage, t.voice.env.level, t.voice.flt)) = some (.idle, 0, ⟨1, 2, 3, 4, 5, 0, 0⟩) := by
  decide +kernel

/-- V-RND-7: `RESUME` and `SUSPEND` change nothing. -/
theorem test_resume_suspend : nextOf (exec .resume p1) = some p1 ∧ nextOf (exec .suspend p1) = some p1 := by
  decide +kernel

/-! ### Parameters -/

/-- V-PAR-4: the derivations from raw values in and out of range. -/
theorem test_setParam_derives :
    (nextOf (exec (.setParam 2 0xFFFFFFFB) ready)).map (fun t => t.voice.note.cutOfs) = some 0xC2000000 ∧
      (nextOf (exec (.setParam 3 50) ready)).map (fun t => t.voice.note.resQ) = some 0x403504F3 ∧
      (nextOf (exec (.setParam 7 5000) ready)).map (fun t => t.voice.env.relInc) = some 0x368BCF65 ∧
      (nextOf (exec (.setParam 6 10) ready)).map (fun t => t.voice.env.susLevel) = some 0x3DE147AE ∧
      (nextOf (exec (.setParam 10 37) ready)).map (fun t => t.voice.note.cutDepth) = some 0x41B1999A ∧
      (nextOf (exec (.setParam 1 3) ready)).map (fun t => t.voice.osc.shape) = some .saw := by decide +kernel

/-- V-ENV-6: `SET_PARAM ATTACK, 1` in `ATTACK` rebases the ramp. -/
theorem test_setParam_rebases :
    (nextOf (exec (.setParam 4 1) (readyWith fun v => { v with env := env1 .attack 0x3E555556 0 10 }))).map
      (fun t => (t.voice.env.l0, t.voice.env.n, t.voice.env.attInc)) = some (0x3E555556, 0, 0x3C2AAAAB) := by
  decide +kernel

/-- V-PAR-1: the raw value comes back, out of range or not, the reserved slots too. -/
theorem test_getParam_roundTrip :
    [((2 : Byte), (0xFFFFFFFF : Word)), (0, 200), (9, 150), (20, 0xFFFE1DC0), (23, 0x7FFFFFFF)].map
        (fun c => ((nextOf (exec (.setParam c.1 c.2) ready)).bind fun t => nextOf (exec (.getParam c.1) t)).map State.resp) =
      [some 0xFFFFFFFF, some 200, some 150, some 0xFFFE1DC0, some 0x7FFFFFFF] := by decide +kernel

/-- V-EXC-1: `GET_PARAM 24`. -/
theorem test_getParam_index :
    (nextOf (exec (.getParam 24) ready)).map (fun t => (t.fault, t.resp)) = some (some ⟨.paramIndex, 0x00001811⟩, 0) := by
  decide +kernel

/-- V-LIFE-4 and V-EXC-1: the null answer, and the index fault. -/
theorem test_getParamStr :
    (nextOf (exec (.getParamStr 1 1) { ready with resp := 7 })).map State.resp = some 0 ∧
      (nextOf (exec (.getParamStr 24 0) ready)).map State.fault = some (some ⟨.paramIndex, 0x00001812⟩) := by
  decide +kernel

/-- V-LIFE-4: the null answer. -/
theorem test_getParamBmp : (nextOf (exec (.getParamBmp 0 60) { ready with resp := 7 })).map State.resp = some 0 := by
  decide +kernel

/-! ### Note events -/

/-- V-GATE-3: `velocity / 127`. -/
theorem test_noteOn_velocity :
    [(0 : Byte), 1, 64, 100, 127].map (fun vel => (nextOf (exec (.noteOn 60 vel) ready)).map fun t => t.voice.note.velAmp) =
      [some 0x00000000, some 0x3C010204, some 0x3F010204, some 0x3F499326, some 0x3F800000] := by decide +kernel

/-- R190: the count saturates. -/
theorem test_noteOn_saturates :
    (nextOf (exec (.noteOn 60 1) (readyWith fun v => { v with gate := 0xFFFFFFFF }))).map
      (fun t => (t.voice.gate, t.voice.retrig)) = some (0xFFFFFFFF, true) := by decide +kernel

/-- R191: the count falls by one, and never below 0. -/
theorem test_noteOff_counts :
    (nextOf (exec (.noteOff 64) (readyWith fun v => { v with gate := 2 }))).map (fun t => t.voice.gate) = some 1 ∧
      (nextOf (exec (.noteOff 64) ready)).map (fun t => t.voice.gate) = some 0 := by decide +kernel

/-- V-EXC-1: `NOTE_OFF 200`. -/
theorem test_noteOff_domain :
    (nextOf (exec (.noteOff 200) ready)).map State.fault = some (some ⟨.domain, 0x0000C821⟩) := by decide +kernel

/-- V-GATE-4: `ALL_NOTE_OFF` from `GATE = 3` under both flags. -/
theorem test_allNoteOff :
    (nextOf (exec .allNoteOff (readyWith fun v => { v with gate := 3 }))).map (fun t => t.voice.gate) = some 3 ∧
      (nextOf (exec .allNoteOff { readyWith (fun v => { v with gate := 3 }) with
        cfg := { Config.default with allNoteOffClears := true } })).map (fun t => t.voice.gate) = some 0 := by
  decide +kernel

/-- V-GATE-6: the accepted no-ops, with any operands. -/
theorem test_noOps :
    ∀ i ∈ [Instr.pitchBend 0xFFFF, .channelPressure 255, .aftertouch 200 255, .loadPreset 255],
      nextOf (exec i p1) = some p1 := by decide +kernel

/-- V-LIFE-4: the preset answers. -/
theorem test_presets :
    (nextOf (exec .getPresetIndex { ready with resp := 7 })).map State.resp = some 0 ∧
      (nextOf (exec (.getPresetName 3) { ready with resp := 7 })).map State.resp = some 0 := by decide +kernel

/-! ### Rendering -/

/-- Program P1: the first two frames. -/
theorem test_render_p1 :
    (nextOf (exec (.render 2) p1)).map (fun t => (readWord t.out 0, readWord t.out 1, readWord t.out 2, t.voice.env.n)) =
      some (some 0xBC98B9A8, some 0xBC98B9A8, some 0xBD321334, 2) := by decide +kernel

/-- V-RND-2: with no note the samples are `-0.0` and the phase advances. -/
theorem test_render_silent :
    (nextOf (exec (.render 4) ready)).map (fun t => (readWord t.out 7, readWord t.out 8, t.voice.osc.phase)) =
      some (some 0x80000000, none, 0x3CB29A61) := by decide +kernel

/-- V-EXC-1: `RENDER 65` into a buffer of 64 frames writes nothing. -/
theorem test_render_buffer :
    (nextOf (exec (.render 65) { ready with cfg := { Config.default with outCapFrames := 64 } })).map
      (fun t => (t.fault, t.out)) = some (some ⟨.buffer, 0x00000040⟩, []) := by decide +kernel

/-- What the host observes of a run that ends without a fault: the answers and the rendered words. -/
def shown (e : RunEnd) : Option (List Word × List (List (Option Word))) :=
  match e with
  | .final o => some (o.answers, o.renders)
  | .faulted _ => none
  | .refused _ => none

/-- The first frame of R210's example as a run of R246: `INIT 48000, 2`, `RENDER 1`, `GET_PARAM CUTOFF` show the answers 0
and 127 and two words of `-0.0`. -/
theorem test_run_observation :
    shown (observe 3 (deliver State.reset (two 0x00000201 48000 ++ two 0x00000040 1 ++ one 0x00000211))) =
      some ([0, 127], [[some 0x80000000, some 0x80000000]]) := by decide +kernel

/-- R246: a run whose last command faults ends at the fault and has no final state. -/
theorem test_run_faulted :
    runOf (one 0x00000106) State.reset = .faulted ⟨.illegal, 0x00000106⟩ ∧
      runOf (two 0x00000201 48000 ++ one 0x00001E11) State.reset = .faulted ⟨.paramIndex, 0x00001E11⟩ ∧
      nextOf (runAll [.getPresetIndex] State.reset) = none := by decide +kernel

/-- V-EXC-1: the order of the checks. An illegal word outranks the lifecycle, and the lifecycle the index. -/
theorem test_fault_priority :
    (nextOf (step (deliver State.reset (one 0x00000106)))).map State.fault = some (some ⟨.illegal, 0x00000106⟩) ∧
      (nextOf (exec (.setParam 30 0) State.reset)).map State.fault = some (some ⟨.notReady, 0x00001E10⟩) ∧
      (nextOf (exec (.init 2 48000) ready)).map State.fault = some (some ⟨.reinit, 0x00000201⟩) ∧
      (nextOf (exec (.init 2 48000) failed)).map State.fault = some (some ⟨.notReady, 0x00000201⟩) := by decide +kernel

/-! ### Operations of a frame -/

/-- V-OSC-1. -/
theorem test_blep :
    blep 0x3D4CCCCD 0x3DCCCCCD = 0xBE800000 ∧ blep 0x3F733333 0x3DCCCCCD = 0x3E7FFFF8 ∧ blep 0x3F000000 0x3DCCCCCD = 0 := by
  decide +kernel

/-- V-OSC-2 and V-OSC-3: the sawtooth before and across the wrap, at 480 Hz. -/
theorem test_saw :
    oscSample 0x43F00000 0x3F000000 ⟨0, .saw, 0⟩ = 0xBF7AE148 ∧
      oscSample 0x43F00000 0x3F000000 ⟨0x3F7C28F6, .saw, 0⟩ = 0x3F3D709C := by decide +kernel

/-- V-OSC-4, frame 9: the corner where `t2` rounds to 1.0; and V-OSC-6, the triangle's peak. -/
theorem test_rect_tri :
    rectSample 0x34000000 0x3DCCCCCD 0x3F000000 = 0x36200000 ∧ triSample 0x3F000000 = 0x3F800000 := by decide +kernel

/-- V-ENV-1, frames 46 and 47: the last step of the attack, and the turn to the decay. -/
theorem test_env_attack :
    envStep true false (env1 .attack 0x3F755556 0 46) = env1 .attack 0x3F7AAAAB 0 47 ∧
      envStep true false (env1 .attack 0x3F7AAAAB 0 47) = env1 .decay 0x3F800000 0x3F800000 0 := by decide +kernel

/-- V-ENV-1, frame 71, and V-ENV-2, frames 0 and 23: the sustain reached, the release entered and ended. -/
theorem test_env_release :
    envStep true false (env1 .decay 0x3F055555 0x3F800000 23) = env1 .sustain 0x3F000000 0x3F000000 0 ∧
      envStep false false (env1 .sustain 0x3F000000 0x3F000000 0) = env1 .release 0x3EF55555 0x3F000000 1 ∧
      envStep false false (env1 .release 0x3CAAAAA0 0x3F000000 23) = env1 .idle 0 0 0 := by decide +kernel

/-- V-ENV-3: a retrigger in mid-decay starts from the current level. -/
theorem test_env_retrigger :
    envStep true true (env1 .decay 0x3F400000 0x3F800000 12) = env1 .attack 0x3F455555 0x3F400000 1 := by decide +kernel

/-- V-FLT-1: the coefficients at 1000 Hz. -/
theorem test_filter_set :
    filtSet .correctlyRounded 0x447A0000 0x3F3504F3 ⟨0, 0, 0, 0, 0, 8, 9⟩ =
      ⟨0x3B8052DA, 0x3C0052DA, 0x3B8052DA, 0xBFE85D18, 0x3F54BCC8, 8, 9⟩ := by decide +kernel

/-- V-FLT-5: the guard fires on the output, and on the new delay word. -/
theorem test_filter_guard :
    [(0x4788B800 : F32), 0x47800000].map (fun z =>
        let f : FltRegs := ⟨0x3B8052DA, 0x3C0052DA, 0x3B8052DA, 0xBFE85D18, 0x3F54BCC8, z, 0⟩
        (filtOut 0 f, (filtNext 0 f).z1)) = [(0, 0), (0, 0)] := by decide +kernel

/-- V-RTR-1: `NOTE_HZ`. -/
theorem test_noteHz :
    noteHz .correctlyRounded 0xC2B80000 = 0x3D24D051 ∧ noteHz .correctlyRounded 0x42700000 = 0x4382D012 ∧
      noteHz .correctlyRounded 0x42FE0000 = 0x4643FF6C ∧ noteHz .correctlyRounded 0x431B0000 = 0x4776F10E := by
  decide +kernel

/-- V-RTR-3 and V-RTR-4: the pulse width and the gain. -/
theorem test_router :
    routePw { ready.voice.note with pwmDepth := 0x3EE66666 } 0x3F000000 = 0x3F39999A ∧
      routeGain { ready.voice.note with velAmp := 0x3F800000, ampDepth := 0x3F000000, ampRev := 0x3F000000 } 0x3F000000
        0x3F800000 = 0x3F400000 := by decide +kernel

/-! ### Witnesses: states and operands that meet the hypotheses of the obligations, at the boundaries of their clauses -/

/-- A usable instance: the hypothesis of most rules of this file. -/
theorem witness_usable : Usable ready := ⟨rfl, rfl⟩

/-- Every register of S0 is in its range. -/
theorem witness_ranges :
    EnvInRange ready.voice.env ∧ PhaseInRange ready.voice.osc ∧ PwInRange ready.voice.osc ∧
      FilterBounded ready.voice.flt ∧ GainInRange ready.voice.note ∧ ResonanceInRange ready := by
  refine ⟨?_, ?_, ?_, ?_, ?_, ?_⟩
  · constructor <;> decide +kernel
  · decide +kernel
  · decide +kernel
  · decide +kernel
  · constructor <;> decide +kernel
  · intro _
    decide +kernel

theorem witness_EncodeOfDecode : decode [0x20, 0x3C, 0x7F, 0x00, 0x99] = .command (.noteOn 60 127) [0x99] := by decide

/-- Both sides: an undefined opcode, a nonzero `RSV`, a nonzero `A` or `B`; and a word that is legal. -/
theorem witness_UnselectedWordsAreTheIllegalWords :
    IllegalWord 0x00000106 ∧ IllegalWord 0x017F3C20 ∧ IllegalWord 0x00000103 ∧ IllegalWord 0x00FF0211 ∧
      Opcode.ofWord? 0xFF7F3C20 = none ∧ Opcode.ofWord? 0x00FFFF20 = some .noteOn := by
  refine ⟨.inl fun o => ?_, .inr (.inl (by decide)), .inr (.inr ⟨.reset, by decide⟩), .inr (.inr ⟨.getParam, by decide⟩),
    by decide, by decide⟩
  cases o <;> decide

theorem witness_StepRunsTheDecodedCommand :
    FaultFree (deliver ready (one 0x00000002)) ∧
      decode (deliver ready (one 0x00000002)).stream = .command .teardown [] := ⟨rfl, by decide⟩

theorem witness_IllegalWordFaults :
    FaultFree (deliver ready (wordBytes 0x017F3C20 ++ [1])) ∧
      (deliver ready (wordBytes 0x017F3C20 ++ [1])).stream = wordBytes 0x017F3C20 ++ [1] ∧ IllegalWord 0x017F3C20 :=
  ⟨rfl, rfl, .inr (.inl (by decide))⟩

theorem witness_RecordedFaultStopsTheBlock :
    ({ ready with fault := some ⟨.buffer, 0x40⟩ } : State).fault = some ⟨.buffer, 0x40⟩ := rfl

/-- Nothing delivered, three bytes of a word, and the first word of a two-word command. -/
theorem witness_NoCommandNoChange :
    FaultFree State.reset ∧ decode [] = .incomplete ∧ decode [0x20, 0x3C, 0x7F] = .incomplete ∧
      decode (one 0x00000040) = .incomplete := ⟨rfl, by decide, by decide, by decide⟩

theorem witness_LegalityTable :
    FaultFree State.reset ∧ FaultFree ready ∧ FaultFree failed ∧ State.reset.life = .uninit ∧ ready.life = .ready ∧
      failed.life = .failed ∧ isLifecycle (.render 0) = false ∧ (Instr.init 2 48000).opcode = .init ∧
      Instr.teardown.opcode = .teardown := ⟨rfl, rfl, rfl, rfl, rfl, rfl, rfl, rfl, rfl⟩

theorem witness_OperandFaults :
    Usable ready ∧ 23 < (24 : Byte).toNat ∧ ready.cfg.outCapFrames < (48001 : Word).toNat ∧ 127 < (128 : Byte).toNat :=
  ⟨⟨rfl, rfl⟩, by decide, by decide, by decide⟩

theorem witness_FaultingCommandOnlyRecords :
    FaultFree State.reset ∧ ∃ t, exec (.render 1) State.reset = .next t ∧ t.fault = some ⟨.notReady, 0x00000040⟩ :=
  ⟨rfl, State.reset.withFault ⟨.notReady, 0x00000040⟩, rfl, rfl⟩

theorem witness_InitLoadsTheDefaults :
    FaultFree State.reset ∧ State.reset.life = .uninit ∧ State.reset.cfg.math = .correctlyRounded := ⟨rfl, rfl, rfl⟩

theorem witness_InitFailures :
    FaultFree State.reset ∧ State.reset.life = .uninit ∧ (44100 : Word).toNat ≠ 48000 ∧ (48000 : Word).toNat = 48000 ∧
      (1 : Byte).toNat ≠ 2 := ⟨rfl, rfl, by decide, by decide, by decide⟩

theorem witness_TeardownRule : FaultFree ready ∧ ready.life = .ready ∧ FaultFree failed ∧ failed.life ≠ .ready :=
  ⟨rfl, rfl, rfl, by decide⟩

theorem witness_TeardownThenInitIsFresh :
    Usable p1 ∧ FaultFree State.reset ∧ State.reset.life = .uninit ∧ State.reset.cfg.math = p1.cfg.math ∧
      ∃ t, exec (.init 2 48000) State.reset = .next t := ⟨⟨rfl, rfl⟩, rfl, rfl, rfl, _, rfl⟩

theorem witness_ResetRule :
    FaultFree State.reset ∧ State.reset.life ≠ .ready ∧ FaultFree ready ∧ ready.life = .ready ∧
      ready.cfg.resetClearsVoice = false ∧
      ({ ready with cfg := { Config.default with resetClearsVoice := true } } : State).cfg.resetClearsVoice = true :=
  ⟨rfl, by decide, rfl, rfl, rfl, rfl⟩

theorem witness_AcceptedNoOps :
    [Instr.resume, .suspend, .pitchBend 0xFFFF, .channelPressure 255, .aftertouch 255 255, .loadPreset 255].all isNoOp = true ∧
      FaultFree ready ∧ ready.life = .ready ∧ FaultFree failed ∧ failed.life ≠ .ready := ⟨rfl, rfl, rfl, rfl, by decide⟩

theorem witness_NullAnswers :
    FaultFree ready ∧ ready.life = .ready ∧ (23 : Byte).toNat ≤ 23 ∧ 23 < (24 : Byte).toNat ∧ FaultFree failed ∧
      failed.life ≠ .ready := ⟨rfl, rfl, by decide, by decide, rfl, by decide⟩

theorem witness_GetParamRule :
    FaultFree failed ∧ failed.life ≠ .ready ∧ FaultFree ready ∧ ready.life = .ready ∧ 23 < (24 : Byte).toNat ∧
      (23 : Byte).toNat < 24 := ⟨rfl, by decide, rfl, rfl, by decide, by decide⟩

theorem witness_ParamRoundTrip : Usable ready ∧ (23 : Byte).toNat < 24 ∧ (0 : Byte).toNat < 24 :=
  ⟨⟨rfl, rfl⟩, by decide, by decide⟩

theorem witness_SetParamIdempotent :
    FaultFree ready ∧ ∃ t, FaultFree t ∧ exec (.setParam 23 5) ready = .next t :=
  ⟨rfl, _, rfl, exec_setParam_usable 23 5 ready rfl rfl (by decide)⟩

theorem witness_SetNoteAndCutoffRule : Usable ready := ⟨rfl, rfl⟩
theorem witness_SetWaveRule : Usable ready := ⟨rfl, rfl⟩
theorem witness_SetResonanceAndSustainRule : Usable ready := ⟨rfl, rfl⟩

/-- Each stage time with its stage current, and not. -/
theorem witness_SetStageTimeRule :
    [EnvStage.attack, .decay, .release, .idle].all (fun e =>
      decide (Usable (readyWith fun v => { v with env := env1 e 0x3F000000 0 7 }))) = true := by decide

theorem witness_SetIntensityRule : Usable ready := ⟨rfl, rfl⟩

theorem witness_ReservedSlotRule :
    Usable ready ∧ 12 ≤ (12 : Byte).toNat ∧ (12 : Byte).toNat < 24 ∧ 12 ≤ (23 : Byte).toNat ∧ (23 : Byte).toNat < 24 :=
  ⟨⟨rfl, rfl⟩, by decide, by decide, by decide, by decide⟩

theorem witness_NoteOnRule :
    FaultFree failed ∧ failed.life ≠ .ready ∧ FaultFree ready ∧ ready.life = .ready ∧ 127 < (128 : Byte).toNat ∧
      (127 : Byte).toNat ≤ 127 := ⟨rfl, by decide, rfl, rfl, by decide, by decide⟩

theorem witness_NoteOffAndAllNoteOffRule :
    FaultFree failed ∧ failed.life ≠ .ready ∧ FaultFree ready ∧ ready.life = .ready ∧ 127 < (128 : Byte).toNat ∧
      (127 : Byte).toNat ≤ 127 ∧ ready.cfg.allNoteOffClears = false ∧
      ({ ready with cfg := { Config.default with allNoteOffClears := true } } : State).cfg.allNoteOffClears = true :=
  ⟨rfl, by decide, rfl, rfl, by decide, by decide, rfl, rfl⟩

/-- V-GATE-2, the row `0 0 1 1`: the count is 2 although as many note-offs ran. -/
theorem witness_GateCountsNoteEvents :
    let cmds : List Instr := [.noteOff 60, .noteOff 60, .noteOn 60 100, .noteOn 64 100]
    Usable ready ∧ ready.voice.gate = 0 ∧ cmds.all isNoteEvent = true ∧ cmds.countP isNoteOn < 2 ^ 32 - 1 ∧
      suffixMax (cmds.map noteDelta) = 2 := ⟨⟨rfl, rfl⟩, rfl, by decide, by decide, by decide⟩

theorem witness_ShortNoteLeavesNoTrace :
    Usable ready ∧ (127 : Byte).toNat ≤ 127 ∧ ready.voice.gate = 0 ∧ ready.voice.env.stage = .idle ∧
      1 ≤ ready.cfg.outCapFrames := ⟨⟨rfl, rfl⟩, by decide, rfl, by decide +kernel, by decide⟩

theorem witness_EnvelopeStepRule :
    [EnvStage.idle, .attack, .decay, .sustain, .release].map (fun e => (env1 e 0 0 0).stage) =
      [.idle, .attack, .decay, .sustain, .release] := by decide

theorem witness_RetriggerStartsFromLevel :
    EnvInRange (env1 .decay 0x3F400000 0x3F800000 12) ∧ EnvInRange (env1 .sustain 0x3F000000 0x3F000000 0) ∧
      EnvInRange (env1 .release 0 0x3F000000 0) := by
  refine ⟨?_, ?_, ?_⟩ <;> constructor <;> decide +kernel

/-- Both ends of the range of the increment. -/
theorem witness_BlepCorners :
    InRange 0x3E800000 (fdiv (f32OfInt 1) (f32OfInt 48000)) 0x3E800000 ∧
      InRange (fdiv (f32OfInt 1) (f32OfInt 48000)) (fdiv (f32OfInt 1) (f32OfInt 48000)) 0x3E800000 := by decide +kernel

/-- Both ends of the range of the phase. -/
theorem witness_TriangleBounded : InRange 0 0 0x3F800000 ∧ InRange 0x3F800000 0 0x3F800000 := by decide

/-- V-FLT-5: the guard fires; and on a filter at rest it does not. -/
theorem witness_GuardBoundsTheFilter :
    guardPasses 0 ⟨0x3B8052DA, 0x3C0052DA, 0x3B8052DA, 0xBFE85D18, 0x3F54BCC8, 0x4788B800, 0⟩ = false ∧
      guardPasses 0 ⟨0x3B8052DA, 0x3C0052DA, 0x3B8052DA, 0xBFE85D18, 0x3F54BCC8, 0, 0⟩ = true := by decide +kernel

/-- The first frame, and the last the buffer holds. -/
theorem witness_OneFrameRule :
    Usable p1 ∧ (1 : Word).toNat = (0 : Word).toNat + 1 ∧ (48000 : Word).toNat = (47999 : Word).toNat + 1 ∧
      (48000 : Word).toNat ≤ p1.cfg.outCapFrames := ⟨⟨rfl, rfl⟩, by decide, by decide, by decide⟩

theorem witness_RouterOutputsInRange : GainInRange ready.voice.note ∧ InRange 0x3F800000 0 0x3F800000 :=
  ⟨witness_ranges.2.2.2.2.1, by decide⟩

/-- No frame, and as many as the buffer holds. -/
theorem witness_RenderCompletesInBounds :
    Usable p1 ∧ (0 : Word).toNat ≤ p1.cfg.outCapFrames ∧ (48000 : Word).toNat ≤ p1.cfg.outCapFrames ∧
      (48000 : Word) ≠ 0 := ⟨⟨rfl, rfl⟩, by decide, by decide, by decide⟩

theorem witness_StereoIdentity :
    Usable p1 ∧ (48000 : Word).toNat ≤ p1.cfg.outCapFrames ∧ ∃ t, exec (.render 48000) p1 = .next t :=
  ⟨⟨rfl, rfl⟩, by decide, _, exec_render_usable 48000 p1 rfl rfl (by decide)⟩

theorem witness_BlockSplitting :
    Usable p1 ∧ (48000 : Word).toNat = (1 : Word).toNat + (47999 : Word).toNat ∧
      (48000 : Word).toNat ≤ p1.cfg.outCapFrames := ⟨⟨rfl, rfl⟩, by decide, by decide⟩

theorem witness_OutputIsNeverRead :
    ∃ t, exec (.render 2) p1 = .next t ∧ t.fault = none :=
  ⟨_, exec_render_usable 2 p1 rfl rfl (by decide), (renderFrames_fault 0 2 p1).trans rfl⟩

theorem witness_SilenceWhileIdle :
    Usable ready ∧ (4 : Word).toNat ≤ ready.cfg.outCapFrames ∧ ready.voice.gate = 0 ∧ ready.voice.env.stage = .idle ∧
      isFinite ready.voice.note.velAmp = true ∧ isFinite ready.voice.note.ampDepth = true ∧
      isFinite ready.voice.note.ampRev = true ∧ ∃ t, exec (.render 4) ready = .next t :=
  ⟨⟨rfl, rfl⟩, by decide, rfl, by decide +kernel, by decide +kernel, by decide +kernel, by decide +kernel, _,
    exec_render_usable 4 ready rfl rfl (by decide)⟩

theorem witness_SamplesBounded :
    Usable ready ∧ (48000 : Word).toNat ≤ ready.cfg.outCapFrames ∧ EnvInRange ready.voice.env ∧
      GainInRange ready.voice.note ∧ ∃ t, exec (.render 48000) ready = .next t :=
  ⟨⟨rfl, rfl⟩, by decide, witness_ranges.1, witness_ranges.2.2.2.2.1, _,
    exec_render_usable 48000 ready rfl rfl (by decide)⟩

theorem witness_OnlyAnswersWriteResp :
    writesResp (.setParam 23 5) = false ∧ ∃ t, exec (.setParam 23 5) ready = .next t :=
  ⟨rfl, _, exec_setParam_usable 23 5 ready rfl rfl (by decide)⟩

theorem witness_AnswerAndNoOpFrame :
    isNoOp .resume = true ∧ (∃ t, exec .resume ready = .next t) ∧ writesResp .getPresetIndex = true ∧
      Instr.getPresetIndex.opcode ≠ .init ∧ ∃ t, exec .getPresetIndex ready = .next t :=
  ⟨rfl, ⟨_, whenReady_usable .resume ready _ rfl rfl⟩, rfl, by decide, _, whenReady_usable .getPresetIndex ready _ rfl rfl⟩

theorem witness_NoteEventFrame :
    (∃ t, exec (.noteOn 127 127) ready = .next t) ∧ (∃ t, exec (.noteOff 127) ready = .next t) ∧
      ∃ t, exec .allNoteOff ready = .next t :=
  ⟨⟨_, exec_noteOn_usable 127 127 ready rfl rfl⟩, ⟨_, exec_noteOff_usable 127 ready rfl rfl⟩, _,
    whenReady_usable .allNoteOff ready _ rfl rfl⟩

/-- A slot with a rebase, in its own stage, and a slot in a stage that never rebases. -/
theorem witness_SetParamFrame :
    (∃ t, exec (.setParam 4 5) (readyWith fun v => { v with env := env1 .attack 0x3F000000 0 7 }) = .next t) ∧
      (readyWith fun v => { v with env := env1 .sustain 0x3F000000 0x3F000000 0 }).voice.env.stage = .sustain ∧
      ∃ t, exec (.setParam 6 5) (readyWith fun v => { v with env := env1 .sustain 0x3F000000 0x3F000000 0 }) = .next t :=
  ⟨⟨_, exec_setParam_usable 4 5 _ rfl rfl (by decide)⟩, rfl, _, exec_setParam_usable 6 5 _ rfl rfl (by decide)⟩

theorem witness_LifecycleAndRenderFrame :
    (∃ t, exec (.init 2 48000) State.reset = .next t) ∧ (∃ t, exec .teardown ready = .next t) ∧
      (∃ t, exec .reset ready = .next t) ∧ ∃ t, exec (.render 48000) p1 = .next t :=
  ⟨⟨_, rfl⟩, ⟨_, rfl⟩, ⟨_, whenReady_usable .reset ready _ rfl rfl⟩, _, exec_render_usable 48000 p1 rfl rfl (by decide)⟩

theorem witness_OwnersOfLifeParamsAndOutput :
    isLifecycle .reset = false ∧ Instr.reset.opcode ≠ .setParam ∧ Instr.reset.opcode ≠ .render ∧
      ∃ t, exec .reset ready = .next t := ⟨rfl, by decide, by decide, _, whenReady_usable .reset ready _ rfl rfl⟩

theorem witness_TimePassesOnlyInFrames :
    isLifecycle (.noteOn 60 127) = false ∧ (Instr.noteOn 60 127).opcode ≠ .reset ∧ (Instr.noteOn 60 127).opcode ≠ .render ∧
      ∃ t, exec (.noteOn 60 127) ready = .next t :=
  ⟨rfl, by decide, by decide, _, exec_noteOn_usable 60 127 ready rfl rfl⟩

/-- A step that runs `SET_PARAM RESONANCE, 100` from the usable instance S0. -/
def stepping : State := deliver ready (two 0x00000310 0x00000064)

theorem stepping_step : ∃ t, step stepping = .next t ∧ t.life = .ready :=
  ⟨_, (whenRunning_none stepping _ rfl).trans (exec_setParam_usable 3 100 ready rfl rfl (by decide)), rfl⟩

theorem witness_StepKeepsTheModelArguments : ∃ t, step stepping = .next t := ⟨_, stepping_step.choose_spec.1⟩

theorem witness_StepKeepsOutputInBounds : OutputInBounds stepping ∧ ∃ t, step stepping = .next t :=
  ⟨⟨rfl, fun _ h => absurd rfl h⟩, _, stepping_step.choose_spec.1⟩

theorem witness_StepKeepsEnvelopeInRange :
    (stepping.life = .ready → EnvInRange stepping.voice.env) ∧ ∃ t, step stepping = .next t ∧ t.life = .ready :=
  ⟨fun _ => witness_ranges.1, stepping_step⟩

theorem witness_StepKeepsOscillatorInRange :
    (stepping.life = .ready → PhaseInRange stepping.voice.osc ∧ PwInRange stepping.voice.osc) ∧
      ∃ t, step stepping = .next t ∧ t.life = .ready :=
  ⟨fun _ => ⟨witness_ranges.2.1, witness_ranges.2.2.1⟩, stepping_step⟩

theorem witness_StepKeepsFilterAndGainInRange :
    (stepping.life = .ready → FilterBounded stepping.voice.flt ∧ GainInRange stepping.voice.note) ∧
      ∃ t, step stepping = .next t ∧ t.life = .ready :=
  ⟨fun _ => ⟨witness_ranges.2.2.2.1, witness_ranges.2.2.2.2.1⟩, stepping_step⟩

theorem witness_StepKeepsResonanceInRange :
    stepping.cfg.math = .correctlyRounded ∧ ResonanceInRange stepping ∧ ∃ t, step stepping = .next t ∧ t.life = .ready :=
  ⟨rfl, witness_ranges.2.2.2.2.2, stepping_step⟩

end Sys2Proof.Tests
end

section
/-! Proofs of the family 00_scope.md. What the decoder takes from the front of a stream, what every next state of a
checked command satisfies, and that no command writes the model arguments or the stream. -/

namespace Sys2Proof

/-! ### What the decoder takes -/

@[simp] theorem wordBytes_length (w : Word) : (wordBytes w).length = 4 := rfl

/-- A row without an operand word takes nothing behind `W0`, and a row with one takes the four bytes of `W1` (R72). -/
theorem decodeOperand_command (o : Opcode) (w0 : Word) (bs rest : List Byte) (i : Instr)
    (h : decodeOperand o w0 bs = .command i rest) : ∃ taken, bs = taken ++ rest ∧ taken.length ≤ 4 := by
  unfold decodeOperand at h
  split at h
  · split at h
    · cases h
    · next w1 rest' hw =>
      cases h
      exact ⟨wordBytes w1, takeWord_some _ _ _ hw, (wordBytes_length w1).le⟩
  · cases h
    exact ⟨[], rfl, Nat.zero_le 4⟩

/-- Once a row is selected the word is legal. -/
theorem decodeOperand_ne_illegal (o : Opcode) (w0 : Word) (bs rest : List Byte) (w : Word) :
    decodeOperand o w0 bs ≠ .illegal w rest := by
  unfold decodeOperand
  split
  · split <;> exact Decoded.noConfusion
  · exact Decoded.noConfusion

/-- What the decoder leaves of a stream with a whole command in front is the stream without at most two words. -/
theorem decode_command_taken (bs rest : List Byte) (i : Instr) (h : decode bs = .command i rest) :
    ∃ taken, bs = taken ++ rest ∧ taken.length ≤ 8 := by
  unfold decode at h
  split at h
  · cases h
  · next w0 rest0 hw =>
    split at h
    · cases h
    · next o _ =>
      obtain ⟨operand, rfl, hlen⟩ := decodeOperand_command o w0 rest0 rest i h
      refine ⟨wordBytes w0 ++ operand, by rw [takeWord_some _ _ _ hw, List.append_assoc], ?_⟩
      rw [List.length_append, wordBytes_length]
      omega

/-- Of an illegal word the decoder takes that word alone (R76). -/
theorem decode_illegal_taken (bs rest : List Byte) (w0 : Word) (h : decode bs = .illegal w0 rest) :
    bs = wordBytes w0 ++ rest := by
  unfold decode at h
  split at h
  · cases h
  · next w rest0 hw =>
    split at h
    · cases h
      exact takeWord_some _ _ _ hw
    · next o _ => exact absurd h (decodeOperand_ne_illegal o w rest0 rest w0)

end Sys2Proof

namespace Sys2Proof.Machine

/-! ### What every next state of a checked command satisfies -/

/-- Every next state the outcome answers satisfies `P`; a stop satisfies it vacuously. -/
def Answers (P : State → Prop) (r : Result) : Prop := ∀ t, r = .next t → P t

variable {P : State → Prop} {s : State}

theorem Answers.next {t : State} (h : P t) : Answers P (.next t) := by
  intro u hu
  cases hu
  exact h

theorem Answers.raiseFault (code : FaultCode) (w0 : Word) (h : ∀ r, P (s.withFault r)) :
    Answers P (raiseFault code w0 s) := .next (h _)

theorem Answers.ite {c : Prop} [Decidable c] {k l : Result} (hk : Answers P k) (hl : Answers P l) :
    Answers P (if c then k else l) := by
  split
  · exact hk
  · exact hl

theorem Answers.whenRunning {k : Result} (hk : Answers P k) : Answers P (whenRunning s k) :=
  fun t h => hk t (whenRunning_next s t k h).2

theorem Answers.whenReady (i : Instr) {k : Result} (hf : ∀ r, P (s.withFault r)) (hk : Answers P k) :
    Answers P (whenReady i s k) := .whenRunning (.ite hk (.raiseFault _ _ hf))

theorem Answers.withSlot (i : Instr) (a : Byte) {k : Fin 24 → Result} (hf : ∀ r, P (s.withFault r))
    (hk : ∀ n, Answers P (k n)) : Answers P (withSlot i a s k) := by
  unfold Machine.withSlot
  split
  · exact .raiseFault _ _ hf
  · exact hk _

/-! ### What no command writes -/

/-- `INIT` reads the model arguments and writes none of them. -/
theorem execInit_keeps_cfg (ch : Byte) (rate : Word) (s : State) : Answers (·.cfg = s.cfg) (execInit ch rate s) := by
  refine .whenRunning ?_
  cases s.life with
  | uninit => exact .ite (.next rfl) (.ite (.next rfl) (.next rfl))
  | ready => exact .next rfl
  | failed => exact .next rfl

/-- The register file that `TEARDOWN` makes free (log 4) holds no model argument. -/
theorem execTeardown_keeps_cfg (s : State) : Answers (·.cfg = s.cfg) (execTeardown s) := by
  refine .whenRunning ?_
  cases s.life with
  | uninit => exact .next rfl
  | ready => exact .next rfl
  | failed => exact .next rfl

/-- No command writes the model arguments (R9). -/
theorem exec_keeps_cfg (i : Instr) (s : State) : Answers (·.cfg = s.cfg) (exec i s) := by
  have hf : ∀ r, (s.withFault r).cfg = s.cfg := State.withFault_cfg s
  cases i with
  | init ch rate => exact execInit_keeps_cfg ch rate s
  | teardown => exact execTeardown_keeps_cfg s
  | reset => exact .whenReady _ hf (.next rfl)
  | resume => exact .whenReady _ hf (.next rfl)
  | suspend => exact .whenReady _ hf (.next rfl)
  | setParam a v => exact .whenReady _ hf (.withSlot _ _ hf fun _ => .next rfl)
  | getParam a => exact .whenReady _ hf (.withSlot _ _ hf fun _ => .next rfl)
  | getParamStr a v => exact .whenReady _ hf (.withSlot _ _ hf fun _ => .next rfl)
  | getParamBmp a v => exact .whenReady _ hf (.withSlot _ _ hf fun _ => .next rfl)
  | noteOn n vel => exact .whenReady _ hf (.ite (.next rfl) (.raiseFault _ _ hf))
  | noteOff n => exact .whenReady _ hf (.ite (.next rfl) (.raiseFault _ _ hf))
  | allNoteOff => exact .whenReady _ hf (.next (by split <;> rfl))
  | pitchBend pb => exact .whenReady _ hf (.next rfl)
  | channelPressure pr => exact .whenReady _ hf (.next rfl)
  | aftertouch n val => exact .whenReady _ hf (.next rfl)
  | loadPreset pi => exact .whenReady _ hf (.next rfl)
  | getPresetIndex => exact .whenReady _ hf (.next rfl)
  | getPresetName pi => exact .whenReady _ hf (.next rfl)
  | render nf => exact .whenReady _ hf (.ite (.raiseFault _ _ hf) (.next (renderFrames_cfg 0 nf.toNat s)))

/-- No command writes the stream: it does the same whatever stands there (`exec_withStream`), so what it answers with
the stream put back is what it answers. -/
theorem exec_keeps_stream (i : Instr) (s : State) : Answers (·.stream = s.stream) (exec i s) := by
  intro t h
  have hr : exec i s = restream s.stream (exec i s) := exec_withStream i s s.stream
  rw [h] at hr
  have ht : t = t.withStream s.stream := Host.Outcome.next.inj hr
  rw [ht, State.withStream_stream]

/-- Settles O54: a step that runs a command leaves the stream behind its bytes, one that records an illegal word leaves
the stream behind that word, and one that waits takes nothing. -/
theorem stepKeepsTheModelArguments : Obligations.StepKeepsTheModelArguments := by
  unfold Obligations.StepKeepsTheModelArguments
  intro s t h
  obtain ⟨-, ⟨i, rest, hd, he⟩ | ⟨w0, rest, hd, rfl⟩ | ⟨-, rfl⟩⟩ := step_next s t h
  · have hcfg : t.cfg = s.cfg := exec_keeps_cfg i (s.withStream rest) t he
    have hstream : t.stream = rest := exec_keeps_stream i (s.withStream rest) t he
    exact ⟨hcfg, hstream ▸ decode_command_taken s.stream rest i hd⟩
  · exact ⟨rfl, wordBytes w0, decode_illegal_taken s.stream rest w0 hd, by simp⟩
  · exact ⟨rfl, [], rfl, Nat.zero_le 8⟩

end Sys2Proof.Machine
end

section
/-! Proofs of the family 10_state.md. What the operations on positive values keep, invariants of the registers along every
step, the defaults of R36, the ranges of R37, and which commands write `RESP`, `LIFE`, `P` and `OUT`. -/

namespace Sys2Proof.Machine

open Sys2Proof.Safety

/-! ### Values between two finite bounds -/

/-- A range between finite bounds, said of the exact values. -/
theorem inRange_iff (x lo hi : F32) (hlo : isFinite lo = true) (hhi : isFinite hi = true) :
    InRange x lo hi ↔ isFinite x = true ∧ fVal lo ≤ fVal x ∧ fVal x ≤ fVal hi := by
  constructor
  · rintro ⟨h1, h2⟩
    have hx := isFinite_of_fle x lo hi hlo hhi h1 h2
    exact ⟨hx, (fle_iff lo x hlo hx).mp h1, (fle_iff x hi hx hhi).mp h2⟩
  · rintro ⟨hx, h1, h2⟩
    exact ⟨(fle_iff lo x hlo hx).mpr h1, (fle_iff x hi hx hhi).mpr h2⟩

theorem flt_of_fle_of_flt (a b c : F32) (h1 : fle a b = true) (h2 : flt b c = true) : flt a c = true := by
  simp only [fle, flt, Bool.and_eq_true, decide_eq_true_eq] at h1 h2 ⊢
  obtain ⟨⟨ha, -⟩, hab⟩ := h1
  obtain ⟨⟨-, hc⟩, hbc⟩ := h2
  exact ⟨⟨ha, hc⟩, by omega⟩

/-- A finite value above zero. -/
abbrev FinitePos (x : F32) : Prop := isFinite x = true ∧ 0 < fVal x

theorem FinitePos.fSign {x : F32} (h : FinitePos x) : fSign x = false := by
  by_contra hs
  have := h.2
  simp only [Bool.not_eq_false] at hs
  simp only [fVal, hs, if_true] at this
  omega

theorem FinitePos.fMag {x : F32} (h : FinitePos x) : (fMag x : Int) = fVal x := by
  simp [fVal, h.fSign]

theorem FinitePos.of_inRange {x lo hi : F32} (hlo : FinitePos lo) (hhi : FinitePos hi) (h : InRange x lo hi) :
    FinitePos x := by
  obtain ⟨hx, h1, -⟩ := (inRange_iff x lo hi hlo.1 hhi.1).mp h
  exact ⟨hx, lt_of_lt_of_le hlo.2 h1⟩

/-- Nonnegative quotients round in their order. -/
theorem fle_packF_roundMag (n1 d1 n2 d2 : Nat) (h1 : 0 < d1) (h2 : 0 < d2) (h : n1 * d2 ≤ n2 * d1) :
    fle (packF false (roundMag n1 d1)) (packF false (roundMag n2 d2)) = true := by
  have hm := roundMag_mono n1 d1 n2 d2 h1 h2 h
  have b1 := roundMag_le_infMag n1 d1
  have b2 := roundMag_le_infMag n2 d2
  simpa [fle, isNaN_packF _ _ b1, isNaN_packF _ _ b2, fKey_packF _ _ b1, fKey_packF _ _ b2] using hm

/-- The integers of a range, converted. -/
theorem f32OfInt_range (k lo hi : Nat) (h1 : lo ≤ k) (h2 : k ≤ hi) :
    InRange (f32OfInt k) (f32OfInt lo) (f32OfInt hi) := by
  rw [f32OfInt_nonneg, f32OfInt_nonneg, f32OfInt_nonneg]
  exact ⟨fle_packF_roundMag _ 1 _ 1 Nat.one_pos Nat.one_pos (by omega),
    fle_packF_roundMag _ 1 _ 1 Nat.one_pos Nat.one_pos (by omega)⟩

/-- Products with a positive factor round in the order of the other factor. -/
theorem fmul_mono {a b c : F32} (ha : FinitePos a) (hb : FinitePos b) (hc : FinitePos c) (h : fle a b = true) :
    fle (fmul a c) (fmul b c) = true := by
  rw [fmul_finite a c ha.1 hc.1, fmul_finite b c hb.1 hc.1, ha.fSign, hb.fSign, hc.fSign]
  refine fle_packF_roundMag _ _ _ _ (by positivity) (by positivity) (Nat.mul_le_mul_right _ (Nat.mul_le_mul_right _ ?_))
  have := (fle_iff a b ha.1 hb.1).mp h
  have := ha.fMag
  have := hb.fMag
  omega

/-- Quotients of positive values round in their order. -/
theorem fdiv_mono {a b c d : F32} (ha : FinitePos a) (hb : FinitePos b) (hc : FinitePos c) (hd : FinitePos d)
    (hac : fle a c = true) (hdb : fle d b = true) : fle (fdiv a b) (fdiv c d) = true := by
  have ma := ha.fMag
  have mb := hb.fMag
  have mc := hc.fMag
  have md := hd.fMag
  have vac := (fle_iff a c ha.1 hc.1).mp hac
  have vdb := (fle_iff d b hd.1 hb.1).mp hdb
  have pb := hb.2
  have pd := hd.2
  rw [fdiv_finite a b ha.1 hb.1 (by omega), fdiv_finite c d hc.1 hd.1 (by omega), ha.fSign, hb.fSign, hc.fSign, hd.fSign]
  refine fle_packF_roundMag _ _ _ _ (by omega) (by omega) ?_
  exact Nat.mul_le_mul (Nat.mul_le_mul_right _ (by omega)) (by omega)

theorem clampi_range (v lo hi : Int) (h : lo ≤ hi) : lo ≤ clampi v lo hi ∧ clampi v lo hi ≤ hi := by
  unfold clampi
  omega

/-! ### Invariants of the registers -/

/-- `INIT` establishes `P`, and every write that another command makes to the registers in `READY` keeps it. -/
structure VoiceInvariant (m : MathUnit) (P : Voice → Prop) : Prop where
  loadDefaults : P (loadDefaults m)
  resetVoice : ∀ v, P v → P (resetVoice v)
  clearVoice : ∀ v, P v → P (clearVoice v)
  setParam : ∀ i w v, P v → P (setParam m i w v)
  noteOn : ∀ n vel v, P v → P (noteOnVoice n vel v)
  gate : ∀ g v, P v → P { v with gate := g }
  frame : ∀ v, P v → P (framePipeline m v).voice

/-- `P` holds of the registers while `LIFE` is `READY`. -/
def HoldsWhenReady (P : Voice → Prop) (s : State) : Prop := s.life = .ready → P s.voice

/-- `INIT` ends in `READY` only where it has loaded the defaults. -/
theorem VoiceInvariant.execInit {P : Voice → Prop} {s : State} (inv : VoiceInvariant s.cfg.math P) (ch : Byte)
    (rate : Word) (hs : HoldsWhenReady P s) : Answers (HoldsWhenReady P) (execInit ch rate s) := by
  refine .whenRunning ?_
  split
  · exact .raiseFault _ _ fun _ => hs
  · exact .raiseFault _ _ fun _ => hs
  · exact .ite (.next nofun) (.ite (.next nofun) (.next fun _ => inv.loadDefaults))

/-- `TEARDOWN` leaves `READY`, so it need not keep the registers. -/
theorem execTeardown_holdsWhenReady {P : Voice → Prop} {s : State} (hs : HoldsWhenReady P s) :
    Answers (HoldsWhenReady P) (execTeardown s) := by
  refine .whenRunning ?_
  split
  · exact .next nofun
  · exact .next hs
  · exact .next hs

/-- A command keeps a register invariant. -/
theorem VoiceInvariant.exec {P : Voice → Prop} {s : State} (inv : VoiceInvariant s.cfg.math P) (i : Instr)
    (hs : HoldsWhenReady P s) : Answers (HoldsWhenReady P) (exec i s) := by
  have hf : ∀ r, HoldsWhenReady P (s.withFault r) := fun _ => hs
  cases i with
  | init ch rate => exact inv.execInit ch rate hs
  | teardown => exact execTeardown_holdsWhenReady hs
  | reset =>
    refine .whenReady _ hf (.next fun h => ?_)
    rw [State.withVoice_voice]
    split
    · exact inv.clearVoice _ (inv.resetVoice _ (hs h))
    · exact inv.resetVoice _ (hs h)
  | resume => exact .whenReady _ hf (.next hs)
  | suspend => exact .whenReady _ hf (.next hs)
  | setParam a v => exact .whenReady _ hf (.withSlot _ _ hf fun n => .next fun h => inv.setParam n v _ (hs h))
  | getParam a => exact .whenReady _ hf (.withSlot _ _ hf fun _ => .next hs)
  | getParamStr a v => exact .whenReady _ hf (.withSlot _ _ hf fun _ => .next hs)
  | getParamBmp a v => exact .whenReady _ hf (.withSlot _ _ hf fun _ => .next hs)
  | noteOn n vel => exact .whenReady _ hf (.ite (.next fun h => inv.noteOn n vel _ (hs h)) (.raiseFault _ _ hf))
  | noteOff n => exact .whenReady _ hf (.ite (.next fun h => inv.gate _ _ (hs h)) (.raiseFault _ _ hf))
  | allNoteOff =>
    refine .whenReady _ hf (.next ?_)
    split
    · exact fun h => inv.gate 0 _ (hs h)
    · exact hs
  | pitchBend pb => exact .whenReady _ hf (.next hs)
  | channelPressure pr => exact .whenReady _ hf (.next hs)
  | aftertouch n val => exact .whenReady _ hf (.next hs)
  | loadPreset pi => exact .whenReady _ hf (.next hs)
  | getPresetIndex => exact .whenReady _ hf (.next hs)
  | getPresetName pi => exact .whenReady _ hf (.next hs)
  | render nf =>
    refine .whenReady _ hf (.ite (.raiseFault _ _ hf) (.next fun h => ?_))
    rw [renderFrames_life] at h
    rw [renderFrames_voice]
    exact voiceAfter_induct _ P inv.frame _ _ (hs h)

/-- A step keeps a register invariant: the command it runs does, and an illegal word or a wait writes no register. -/
theorem VoiceInvariant.step {P : Voice → Prop} {s t : State} (inv : VoiceInvariant s.cfg.math P)
    (hs : HoldsWhenReady P s) (h : step s = .next t) : HoldsWhenReady P t := by
  obtain ⟨-, ⟨i, rest, -, he⟩ | ⟨w0, rest, -, rfl⟩ | ⟨-, rfl⟩⟩ := step_next s t h
  · exact VoiceInvariant.exec (s := s.withStream rest) inv i hs t he
  · exact hs
  · exact hs

/-! ### The defaults -/

/-- A default lies within its own row of R160, so the clamp of R163 leaves it. -/
theorem clampedParam_paramDefault (i : Fin 24) : clampedParam i (paramDefault i) = (paramRow i).default := by
  revert i
  decide +kernel

theorem paramDefaults_eq : Vector.ofFn paramDefault =
    #v[60, 0, 127, 0, 9, 199, 69, 199, 100, 0, 0, 0, 0, 0, 0, 0, 0, 0, 0, 0, 0, 0, 0, 0] := by decide +kernel

theorem deriveSlot_default (m : MathUnit) (v : Voice) (i : Fin 24) (h : v.p = defaultVoice.p) :
    deriveSlot m v i = derive m i (paramDefault i) v := by
  rw [deriveSlot, getParam, h, defaultVoice, Vector.get_ofFn]

/-- `LOAD_DEFAULTS` (R233), each derivation with the default of its own slot. -/
theorem loadDefaults_derived (m : MathUnit) : loadDefaults m =
    { p := Vector.ofFn paramDefault
      note :=
        { baseNote := f32OfInt 60
          velAmp := 0
          cutOfs := fsub (f32OfInt 127) 0x42000000
          resQ := fmul 0x3F3504F3 (exp2 m (fdiv (f32OfInt 0) 0x41C80000))
          ampDepth := intensity 100
          ampRev := fsub 0x3F800000 (intensity 100)
          pitchDepth := fmul (intensity 0) 0x41400000
          cutDepth := fmul (intensity 0) 0x42700000
          pwmDepth := fmul (intensity 0) 0x3EE66666 }
      gate := 0
      retrig := false
      env := ⟨.idle, 0, 0, 0, stageInc 9, stageInc 199, stageInc 199, fdiv (f32OfInt (69 + 1)) 0x42C80000⟩
      osc := ⟨0, .saw, 0x3F000000⟩
      flt := ⟨0, 0, 0, 0, 0, 0, 0⟩ } := by
  simp only [loadDefaults, List.foldl_cons, List.foldl_nil, deriveSlot_default, derive_p]
  simp only [derive, clampedParam_paramDefault]
  rfl

/-- The registers after `LOAD_DEFAULTS`: the table of R36. -/
theorem loadDefaults_eq (m : MathUnit) : loadDefaults m =
    { p := #v[60, 0, 127, 0, 9, 199, 69, 199, 100, 0, 0, 0, 0, 0, 0, 0, 0, 0, 0, 0, 0, 0, 0, 0]
      note := ⟨0x42700000, 0, 0x42BE0000, fmul 0x3F3504F3 (exp2 m 0), 0x3F800000, 0, 0, 0, 0⟩
      gate := 0
      retrig := false
      env := ⟨.idle, 0, 0, 0, 0x3B088889, 0x38DA740E, 0x38DA740E, 0x3F333333⟩
      osc := ⟨0, .saw, 0x3F000000⟩
      flt := ⟨0, 0, 0, 0, 0, 0, 0⟩ } := by
  have note : f32OfInt 60 = 0x42700000 := by decide +kernel
  have cutoff : fsub (f32OfInt 127) 0x42000000 = 0x42BE0000 := by decide +kernel
  have resonance : fdiv (f32OfInt 0) 0x41C80000 = 0 := by decide +kernel
  have attack : stageInc 9 = 0x3B088889 := by decide +kernel
  have decay : stageInc 199 = 0x38DA740E := by decide +kernel
  have sustain : fdiv (f32OfInt (69 + 1)) 0x42C80000 = 0x3F333333 := by decide +kernel
  have full : intensity 100 = 0x3F800000 := by decide +kernel
  have off : intensity 0 = 0 := by decide +kernel
  have rest : fsub 0x3F800000 0x3F800000 = 0 := by decide +kernel
  have depths : fmul 0 0x41400000 = 0 ∧ fmul 0 0x42700000 = 0 ∧ fmul 0 0x3EE66666 = 0 := by decide +kernel
  rw [loadDefaults_derived, paramDefaults_eq, note, cutoff, resonance, attack, decay, sustain, full, off, rest, depths.1,
    depths.2.1, depths.2.2]

/-! ### The envelope -/

/-- Time for a stage of 1 to 5000 milliseconds (R168): the increment lies between those of the two ends. -/
theorem stageInc_range (vc : Int) (h0 : 0 ≤ vc) (h1 : vc ≤ 4999) : InRange (stageInc vc) 0x368BCF65 0x3CAAAAAB := by
  obtain ⟨k, rfl⟩ := Int.eq_ofNat_of_zero_le h0
  have one : FinitePos 0x3F800000 := by decide
  have ms48 : FinitePos 0x42400000 := by decide
  have ms5000 : FinitePos 0x459C4000 := by decide
  have n240000 : FinitePos 0x486A6000 := by decide
  have ms : InRange (f32OfInt (k + 1 : Nat)) 0x3F800000 0x459C4000 := by
    have e1 : f32OfInt (1 : Nat) = 0x3F800000 := by decide +kernel
    have e5000 : f32OfInt (5000 : Nat) = 0x459C4000 := by decide +kernel
    exact e1 ▸ e5000 ▸ f32OfInt_range (k + 1) 1 5000 (by omega) (by omega)
  have pms := FinitePos.of_inRange one ms5000 ms
  have frames : InRange (fmul (f32OfInt (k + 1 : Nat)) 0x42400000) 0x42400000 0x486A6000 := by
    have lo : fmul 0x3F800000 0x42400000 = 0x42400000 := by decide +kernel
    have hi : fmul 0x459C4000 0x42400000 = 0x486A6000 := by decide +kernel
    exact ⟨lo ▸ fmul_mono one pms ms48 ms.1, hi ▸ fmul_mono pms ms5000 ms48 ms.2⟩
  have pframes := FinitePos.of_inRange ms48 n240000 frames
  have lo : fdiv 0x3F800000 0x486A6000 = 0x368BCF65 := by decide +kernel
  have hi : fdiv 0x3F800000 0x42400000 = 0x3CAAAAAB := by decide +kernel
  exact ⟨lo ▸ fdiv_mono one n240000 one pframes (by decide) frames.2,
    hi ▸ fdiv_mono one pframes one ms48 (by decide) frames.1⟩

/-- A sustain of 1 to 100 percent (R169). -/
theorem sustain_range (vc : Int) (h0 : 0 ≤ vc) (h1 : vc ≤ 99) :
    InRange (fdiv (f32OfInt (vc + 1)) 0x42C80000) 0x3C23D70A 0x3F800000 := by
  obtain ⟨k, rfl⟩ := Int.eq_ofNat_of_zero_le h0
  have one : FinitePos 0x3F800000 := by decide
  have hundred : FinitePos 0x42C80000 := by decide
  have percent : InRange (f32OfInt (k + 1 : Nat)) 0x3F800000 0x42C80000 := by
    have e1 : f32OfInt (1 : Nat) = 0x3F800000 := by decide +kernel
    have e100 : f32OfInt (100 : Nat) = 0x42C80000 := by decide +kernel
    exact e1 ▸ e100 ▸ f32OfInt_range (k + 1) 1 100 (by omega) (by omega)
  have ppercent := FinitePos.of_inRange one hundred percent
  have lo : fdiv 0x3F800000 0x42C80000 = 0x3C23D70A := by decide +kernel
  have hi : fdiv 0x42C80000 0x42C80000 = 0x3F800000 := by decide +kernel
  exact ⟨lo ▸ fdiv_mono one hundred ppercent hundred percent.1 (by decide),
    hi ▸ fdiv_mono ppercent hundred hundred hundred percent.2 (by decide)⟩

/-- Entering a stage keeps the ranges, also at a new level: the ramp starts there with its count at 0. -/
theorem envEnter_inRange (st : EnvStage) (e : EnvRegs) (n : Word) (x : F32) (h : EnvInRange e)
    (hx : InRange x 0 0x3F800000) : EnvInRange (envEnter st { e with n := n, level := x }) :=
  { h with level := hx, l0 := hx, n := by show (0 : Nat) < 2 ^ 24; decide }

/-- So does a rebase (R125). -/
theorem envRebase_inRange (e : EnvRegs) (h : EnvInRange e) : EnvInRange (envRebase e) :=
  { h with l0 := h.level, n := by show (0 : Nat) < 2 ^ 24; decide }

/-- Phase 1 enters a stage or leaves the registers as they are (R121). -/
theorem envGate_inRange (trig retrig : Bool) (e : EnvRegs) (h : EnvInRange e) : EnvInRange (envGate trig retrig e) := by
  have enter (st : EnvStage) : EnvInRange (envEnter st e) := envEnter_inRange st e e.n e.level h h.level
  unfold envGate
  repeat' split
  all_goals simp only [h, enter]

/-- What a ramp has covered at the end of its next frame: `f32(ENV_N) * inc` with the counter advanced (R122). -/
def rampDistance (inc : F32) (e : EnvRegs) : F32 := fmul (f32OfInt (e.n + 1).toNat) inc

theorem rampUp_level (inc : F32) (e : EnvRegs) : (rampUp inc e).level = fadd e.l0 (rampDistance inc e) := rfl

theorem rampDown_level (inc : F32) (e : EnvRegs) : (rampDown inc e).level = fsub e.l0 (rampDistance inc e) := rfl

/-- The distance is finite and not negative, and at least 1 once the count is `2^24`: every ramp ends before. -/
theorem rampDistance_range (inc : F32) (e : EnvRegs) (h : EnvInRange e) (hinc : InRange inc 0x368BCF65 0x3CAAAAAB) :
    isFinite (rampDistance inc e) = true ∧ 0 ≤ fVal (rampDistance inc e) ∧
      ((e.n + 1).toNat < 2 ^ 24 ∨ fVal 0x3F800000 ≤ fVal (rampDistance inc e)) := by
  have hn : (e.n + 1).toNat ≤ 2 ^ 24 := by
    have := h.n
    bv_omega
  unfold rampDistance
  generalize (e.n + 1).toNat = n at hn
  have zero : f32OfInt (0 : Nat) = 0 := by decide +kernel
  have top : f32OfInt (2 ^ 24 : Nat) = 0x4B800000 := by decide +kernel
  have count : InRange (f32OfInt n) 0 0x4B800000 := zero ▸ top ▸ f32OfInt_range n 0 (2 ^ 24) (Nat.zero_le n) hn
  obtain ⟨fn, n0, n1⟩ := (inRange_iff _ _ _ (by decide) (by decide)).mp count
  obtain ⟨finc, inc0, inc1⟩ := (inRange_iff _ _ _ (by decide) (by decide)).mp hinc
  have vlo : 0 ≤ fVal 0x368BCF65 := by decide
  have vhi : fVal 0x3CAAAAAB ≤ 2 ^ 149 := by decide
  have range : InRange (fmul (f32OfInt n) inc) 0 0x4B800000 :=
    ⟨le_fmul _ _ _ fn finc (by decide) (mul_nonneg n0 (vlo.trans inc0)),
      fmul_le _ _ _ fn finc (by decide) (mul_le_mul n1 (inc1.trans vhi) (vlo.trans inc0) (by decide))⟩
  obtain ⟨fd, d0, -⟩ := (inRange_iff _ _ _ (by decide) (by decide)).mp range
  refine ⟨fd, d0, (Nat.lt_or_eq_of_le hn).imp_right ?_⟩
  rintro rfl
  have v : fVal 0x3F800000 * 2 ^ 149 ≤ fVal 0x4B800000 * fVal 0x368BCF65 := by decide
  refine (fle_iff _ _ (by decide) fd).mp (le_fmul _ _ _ fn finc (by decide) (v.trans ?_))
  rw [top]
  exact mul_le_mul_of_nonneg_left inc0 (by decide)

/-- A frame of the attack (R122): below 1.0 the count is below `2^24`. -/
theorem rampUp_inRange (e : EnvRegs) (h : EnvInRange e) :
    EnvInRange (if fle 0x3F800000 (rampUp e.attInc e).level then
      envEnter .decay { rampUp e.attInc e with level := 0x3F800000 } else rampUp e.attInc e) := by
  split
  · exact envEnter_inRange .decay e _ _ h (by decide)
  · next below =>
    obtain ⟨fl0, l0, -⟩ := (inRange_iff _ _ _ (by decide) (by decide)).mp h.l0
    obtain ⟨fd, d0, far⟩ := rampDistance_range e.attInc e h h.attInc
    have v0 : fVal 0 = 0 := by decide
    rw [rampUp_level] at below
    have level0 : fle 0 (fadd e.l0 (rampDistance e.attInc e)) = true := le_fadd _ _ _ fl0 fd (by decide) (by omega)
    have level1 : fle (fadd e.l0 (rampDistance e.attInc e)) 0x3F800000 = true :=
      fle_of_flt _ _ (fle_total _ _ (by decide) (isNaN_of_fle_right _ _ level0) (by simpa using below))
    exact { h with
      level := ⟨level0, level1⟩
      n := far.resolve_right fun far => below (le_fadd _ _ _ fl0 fd (by decide) (by omega)) }

/-- A frame of the decay or of the release (R122): above its floor the count is below `2^24`. -/
theorem rampDown_inRange (st : EnvStage) (inc floor : F32) (e : EnvRegs) (h : EnvInRange e)
    (hinc : InRange inc 0x368BCF65 0x3CAAAAAB) (hfloor : InRange floor 0 0x3F800000) :
    EnvInRange (if fle (rampDown inc e).level floor then
      envEnter st { rampDown inc e with level := floor } else rampDown inc e) := by
  split
  · exact envEnter_inRange st e _ _ h hfloor
  · next above =>
    obtain ⟨fl0, -, l1⟩ := (inRange_iff _ _ _ (by decide) (by decide)).mp h.l0
    obtain ⟨fd, d0, far⟩ := rampDistance_range inc e h hinc
    rw [rampDown_level] at above
    have level1 : fle (fsub e.l0 (rampDistance inc e)) 0x3F800000 = true := fsub_le _ _ _ fl0 fd (by decide) (by omega)
    have higher : flt floor (fsub e.l0 (rampDistance inc e)) = true :=
      fle_total _ _ (isNaN_of_fle_left _ _ level1) (isNaN_of_fle_left _ _ hfloor.2) (by simpa using above)
    have level0 : fle 0 (fsub e.l0 (rampDistance inc e)) = true := fle_trans _ _ _ hfloor.1 (fle_of_flt _ _ higher)
    have v0 : fVal 0 = 0 := by decide
    exact { h with
      level := ⟨level0, level1⟩
      n := far.resolve_right fun far =>
        above (fle_trans _ _ _ (fsub_le _ _ _ fl0 fd (by decide) (by omega)) hfloor.1) }

/-- Phase 2 (R122), stage by stage. -/
theorem envAdvance_inRange (e : EnvRegs) (h : EnvInRange e) : EnvInRange (envAdvance e) := by
  have sus : InRange e.susLevel 0 0x3F800000 := ⟨fle_trans _ _ _ (by decide) h.susLevel.1, h.susLevel.2⟩
  have zero : InRange 0 0 0x3F800000 := by decide
  unfold envAdvance
  split
  · exact { h with level := zero }
  · exact rampUp_inRange e h
  · exact rampDown_inRange .sustain e.decInc e.susLevel e h h.decInc sus
  · exact { h with level := sus }
  · exact rampDown_inRange .idle e.relInc 0 e h h.relInc zero

/-- A derivation (R163 to R171) keeps the ranges: slots 4, 5 and 7 write an increment, slot 6 the sustain level, the
others no register of the envelope. -/
theorem derive_envInRange (m : MathUnit) (i : Fin 24) (w : Word) (v : Voice) (h : EnvInRange v.env) :
    EnvInRange (derive m i w v).env := by
  have time : InRange (stageInc (clampi w.toInt 0 4999)) 0x368BCF65 0x3CAAAAAB := by
    obtain ⟨h0, h1⟩ := clampi_range w.toInt 0 4999 (by decide)
    exact stageInc_range _ h0 h1
  have rebase (c : Prop) [Decidable c] (e : EnvRegs) (he : EnvInRange e) : EnvInRange (if c then envRebase e else e) := by
    split
    · exact envRebase_inRange e he
    · exact he
  unfold derive
  split
  case h_5 hi =>
    obtain rfl : i = 4 := Fin.ext hi
    exact rebase _ _ { h with attInc := time }
  case h_6 hi =>
    obtain rfl : i = 5 := Fin.ext hi
    exact rebase _ _ { h with decInc := time }
  case h_7 hi =>
    obtain rfl : i = 6 := Fin.ext hi
    obtain ⟨h0, h1⟩ := clampi_range w.toInt 0 99 (by decide)
    exact { h with susLevel := sustain_range _ h0 h1 }
  case h_8 hi =>
    obtain rfl : i = 7 := Fin.ext hi
    exact rebase _ _ { h with relInc := time }
  all_goals exact h

theorem clearVoice_envInRange (v : Voice) (h : EnvInRange v.env) : EnvInRange (clearVoice v).env :=
  have zero : InRange 0 0 0x3F800000 := by decide
  { h with level := zero, l0 := zero, n := Nat.pos_of_neZero _ }

theorem envInRange_invariant (m : MathUnit) : VoiceInvariant m fun v => EnvInRange v.env where
  loadDefaults := by
    rw [loadDefaults_eq]
    show EnvInRange ⟨.idle, 0, 0, 0, 0x3B088889, 0x38DA740E, 0x38DA740E, 0x3F333333⟩
    constructor <;> decide
  resetVoice _ h := h
  clearVoice := clearVoice_envInRange
  setParam i w _ h := derive_envInRange m i w _ h
  noteOn _ _ _ h := h
  gate _ _ h := h
  frame _ h := envAdvance_inRange _ (envGate_inRange _ _ _ h)

/-- Settles O56: every write to the envelope keeps its ranges; a ramp ends before its count reaches `2^24`. -/
theorem stepKeepsEnvelopeInRange : Obligations.StepKeepsEnvelopeInRange := by
  unfold Obligations.StepKeepsEnvelopeInRange
  intro s t hs hstep
  exact (envInRange_invariant s.cfg.math).step hs hstep

/-! ### The oscillator -/

/-- A phase step of at most 0.25 and the wrap (R101) keep the phase in [0, 1). -/
theorem nextPhase_range (phase dt : F32) (h0 : fle 0 phase = true) (h1 : flt phase 0x3F800000 = true)
    (hdt : InRange dt 0 0x3E800000) :
    fle 0 (nextPhase phase dt) = true ∧ flt (nextPhase phase dt) 0x3F800000 = true := by
  have v0 : fVal 0 = 0 := by decide
  have v1 : fVal 0x3F800000 = 2 ^ 149 := by decide
  have vq : fVal 0x3E800000 = 2 ^ 147 := by decide
  have vs : fVal 0x3FA00000 = 2 ^ 149 + 2 ^ 147 := by decide
  obtain ⟨fp, p0, p1⟩ := (inRange_iff phase 0 0x3F800000 (by decide) (by decide)).mp ⟨h0, fle_of_flt _ _ h1⟩
  obtain ⟨fd, d0, d1⟩ := (inRange_iff _ _ _ (by decide) (by decide)).mp hdt
  have sum : InRange (fadd phase dt) 0 0x3FA00000 :=
    ⟨le_fadd _ _ _ fp fd (by decide) (by omega), fadd_le _ _ _ fp fd (by decide) (by omega)⟩
  obtain ⟨fs, -, s1⟩ := (inRange_iff _ _ _ (by decide) (by decide)).mp sum
  unfold nextPhase
  dsimp only
  split
  · next wrap =>
    have := (fle_iff _ _ (by decide) fs).mp wrap
    have low : fle (fsub (fadd phase dt) 0x3F800000) 0x3E800000 = true :=
      fsub_le _ _ _ fs (by decide) (by decide) (by omega)
    exact ⟨le_fsub _ _ _ fs (by decide) (by decide) (by omega), flt_of_fle_of_flt _ _ _ low (by decide)⟩
  · next inside =>
    exact ⟨sum.1, fle_total _ _ (by decide) (isNaN_of_fle_right _ _ sum.1) (by simpa using inside)⟩

/-- The router's clamp of the frequency (R175) bounds the phase step, whatever `EXP2` answers. -/
theorem phaseStep_routeFreq_range (m : MathUnit) (r : NoteRegs) (env : F32) :
    InRange (phaseStep (routeFreq m r env)) 0 0x3E800000 := by
  have freq : InRange (routeFreq m r env) 0x3F800000 0x463B8000 := fclamp_range _ _ _ (by decide)
  obtain ⟨ff, f0, f1⟩ := (inRange_iff _ _ _ (by decide) (by decide)).mp freq
  have v1 : fVal 0x3F800000 = 2 ^ 149 := by decide
  have v0 : fVal 0 * fVal sampleRate = 0 := by decide
  have top : fVal 0x463B8000 * 2 ^ 149 ≤ fVal 0x3E800000 * fVal sampleRate := by decide
  exact ⟨le_fdiv _ _ _ ff (by decide) (by decide) (by decide) (by omega),
    fdiv_le _ _ _ ff (by decide) (by decide) (by decide) (by omega)⟩

/-- A derivation writes neither the phase nor the pulse width. -/
theorem derive_osc (m : MathUnit) (i : Fin 24) (w : Word) (v : Voice) :
    (derive m i w v).osc.phase = v.osc.phase ∧ (derive m i w v).osc.pw = v.osc.pw := by
  unfold derive
  split <;> exact ⟨rfl, rfl⟩

/-- The oscillator as `INIT` and `RESET` leave it (R36, R213). -/
theorem defaultOsc_inRange : PhaseInRange ⟨0, .saw, 0x3F000000⟩ ∧ PwInRange ⟨0, .saw, 0x3F000000⟩ := by decide

theorem oscInRange_invariant (m : MathUnit) : VoiceInvariant m fun v => PhaseInRange v.osc ∧ PwInRange v.osc where
  loadDefaults := by
    rw [loadDefaults_eq]
    exact defaultOsc_inRange
  resetVoice _ _ := defaultOsc_inRange
  clearVoice _ h := h
  setParam i w v h := by
    obtain ⟨hphase, hpw⟩ := derive_osc m i w { v with p := v.p.set i.val w i.isLt }
    unfold setParam PhaseInRange PwInRange
    rw [hphase, hpw]
    exact h
  noteOn _ _ _ h := h
  gate _ _ h := h
  frame := fun _ ⟨⟨h0, h1⟩, _⟩ =>
    ⟨nextPhase_range _ _ h0 h1 (phaseStep_routeFreq_range m _ _), fclamp_range _ _ _ (by decide)⟩

/-- Settles O57: the router's clamps bound the phase step and the pulse width whatever `EXP2` is, and the wrap brings the
phase back below 1. -/
theorem stepKeepsOscillatorInRange : Obligations.StepKeepsOscillatorInRange := by
  unfold Obligations.StepKeepsOscillatorInRange
  intro s t hs hstep
  exact (oscInRange_invariant s.cfg.math).step hs hstep

/-! ### The resonance -/

/-- `RES_Q` at each of the 101 settings of `RESONANCE` (R167) with the default `EXP2`. -/
theorem resQ_range (vc : Int) (h0 : 0 ≤ vc) (h1 : vc ≤ 100) :
    InRange (fmul 0x3F3504F3 (exp2 .correctlyRounded (fdiv (f32OfInt vc) 0x41C80000))) 0x3F3504F3 0x413504F3 := by
  have settings : ∀ k : Fin 101, InRange (fmul 0x3F3504F3 (exp2 .correctlyRounded (fdiv (f32OfInt k.val) 0x41C80000)))
      0x3F3504F3 0x413504F3 := by decide +kernel
  obtain ⟨k, rfl⟩ := Int.eq_ofNat_of_zero_le h0
  exact settings ⟨k, by omega⟩

/-- Of the derivations only that of slot 3 writes `RES_Q`. -/
theorem derive_resQ_inRange (i : Fin 24) (w : Word) (v : Voice) (h : InRange v.note.resQ 0x3F3504F3 0x413504F3) :
    InRange (derive .correctlyRounded i w v).note.resQ 0x3F3504F3 0x413504F3 := by
  unfold derive
  split
  case h_4 hi =>
    obtain rfl : i = 3 := Fin.ext hi
    obtain ⟨h0, h1⟩ := clampi_range w.toInt 0 100 (by decide)
    exact resQ_range _ h0 h1
  all_goals exact h

theorem resQ_invariant : VoiceInvariant .correctlyRounded fun v => InRange v.note.resQ 0x3F3504F3 0x413504F3 where
  loadDefaults := by
    rw [loadDefaults_eq]
    decide +kernel
  resetVoice _ h := h
  clearVoice _ h := h
  setParam i w _ h := derive_resQ_inRange i w _ h
  noteOn _ _ _ h := h
  gate _ _ h := h
  frame _ h := h

/-- Settles O59: `SET_PARAM RESONANCE` and `INIT` are the writers of `RES_Q`, and each of the 101 values the clamp leaves
gives one in range. -/
theorem stepKeepsResonanceInRange : Obligations.StepKeepsResonanceInRange := by
  unfold Obligations.StepKeepsResonanceInRange
  intro s t hm hs hstep
  have inv := resQ_invariant
  rw [← hm] at inv
  exact inv.step hs hstep

/-! ### Owners -/

/-- From `s` to `t` the command `i` wrote `RESP`, `LIFE`, `P` and `OUT` only where it is an owner (R21, R22, R32, R50). -/
structure WritesOwned (i : Instr) (s t : State) : Prop where
  resp : writesResp i = false → t.resp = s.resp
  life : isLifecycle i = false → t.life = s.life
  p : isLifecycle i = false → i.opcode ≠ .setParam → t.voice.p = s.voice.p
  out : i.opcode ≠ .render → t.out = s.out

section

variable {i : Instr} {s : State}

theorem WritesOwned.refl : WritesOwned i s s := ⟨fun _ => rfl, fun _ => rfl, fun _ _ => rfl, fun _ => rfl⟩

theorem WritesOwned.withFault (r : FaultRecord) : WritesOwned i s (s.withFault r) :=
  ⟨fun _ => rfl, fun _ => rfl, fun _ _ => rfl, fun _ => rfl⟩

theorem WritesOwned.withResp (w : Word) (h : writesResp i = true) : WritesOwned i s (s.withResp w) :=
  ⟨fun hn => absurd h (by simp [hn]), fun _ => rfl, fun _ _ => rfl, fun _ => rfl⟩

theorem WritesOwned.withVoice (v : Voice) (h : i.opcode ≠ .setParam → v.p = s.voice.p) :
    WritesOwned i s (s.withVoice v) :=
  ⟨fun _ => rfl, fun _ => rfl, fun _ hp => h hp, fun _ => rfl⟩

end

theorem execInit_writesOwned (ch : Byte) (rate : Word) (s : State) :
    Answers (WritesOwned (.init ch rate) s) (execInit ch rate s) := by
  have owner (t : State) (h : t.out = s.out) : Answers (WritesOwned (.init ch rate) s) (.next t) :=
    .next ⟨nofun, nofun, nofun, fun _ => h⟩
  refine .whenRunning ?_
  split
  · exact owner _ rfl
  · exact owner _ rfl
  · unfold initUninit
    generalize loadDefaults s.cfg.math = v
    exact .ite (owner _ rfl) (.ite (owner _ rfl) (owner _ rfl))

theorem execTeardown_writesOwned (s : State) : Answers (WritesOwned .teardown s) (execTeardown s) := by
  refine .whenRunning ?_
  split
  · exact .next ⟨fun _ => rfl, nofun, nofun, fun _ => rfl⟩
  · exact .next .refl
  · exact .next .refl

/-- Every command writes `RESP`, `LIFE`, `P` and `OUT` only where it is an owner. -/
theorem exec_writesOwned (i : Instr) (s : State) : Answers (WritesOwned i s) (exec i s) := by
  cases i with
  | init ch rate => exact execInit_writesOwned ch rate s
  | teardown => exact execTeardown_writesOwned s
  | reset => exact .whenReady _ .withFault (.next (.withVoice _ fun _ => by split <;> rfl))
  | resume => exact .whenReady _ .withFault (.next .refl)
  | suspend => exact .whenReady _ .withFault (.next .refl)
  | setParam a v =>
    exact .whenReady _ .withFault (.withSlot _ _ .withFault fun _ => .next (.withVoice _ fun h => absurd rfl h))
  | getParam a => exact .whenReady _ .withFault (.withSlot _ _ .withFault fun _ => .next (.withResp _ rfl))
  | getParamStr a v => exact .whenReady _ .withFault (.withSlot _ _ .withFault fun _ => .next (.withResp _ rfl))
  | getParamBmp a v => exact .whenReady _ .withFault (.withSlot _ _ .withFault fun _ => .next (.withResp _ rfl))
  | noteOn n vel =>
    exact .whenReady _ .withFault (.ite (.next (.withVoice _ fun _ => rfl)) (.raiseFault _ _ .withFault))
  | noteOff n =>
    exact .whenReady _ .withFault (.ite (.next (.withVoice _ fun _ => rfl)) (.raiseFault _ _ .withFault))
  | allNoteOff =>
    refine .whenReady _ .withFault (.next ?_)
    split
    · exact .withVoice _ fun _ => rfl
    · exact .refl
  | pitchBend pb => exact .whenReady _ .withFault (.next .refl)
  | channelPressure pr => exact .whenReady _ .withFault (.next .refl)
  | aftertouch n val => exact .whenReady _ .withFault (.next .refl)
  | loadPreset pi => exact .whenReady _ .withFault (.next .refl)
  | getPresetIndex => exact .whenReady _ .withFault (.next (.withResp _ rfl))
  | getPresetName pi => exact .whenReady _ .withFault (.next (.withResp _ rfl))
  | render nf =>
    refine .whenReady _ .withFault (.ite (.raiseFault _ _ .withFault) (.next ?_))
    rw [renderFrames_eq]
    exact ⟨fun _ => rfl, fun _ => rfl, fun _ _ => (voiceAfter_keeps _ _ _).p, fun h => absurd rfl h⟩

/-- Settles O47: `RESP` is written by its owners alone. -/
theorem onlyAnswersWriteResp : Obligations.OnlyAnswersWriteResp := by
  unfold Obligations.OnlyAnswersWriteResp
  intro i s t hw h
  exact (exec_writesOwned i s t h).resp hw

/-- Settles O52: `LIFE`, `P` and `OUT` are written by their owners alone. -/
theorem ownersOfLifeParamsAndOutput : Obligations.OwnersOfLifeParamsAndOutput := by
  unfold Obligations.OwnersOfLifeParamsAndOutput
  intro i s t h
  obtain ⟨-, life, p, out⟩ := exec_writesOwned i s t h
  exact ⟨life, p, out⟩

/-! ### `INIT` -/

/-- `INIT` in `UNINIT` with the rate and the channel count it wants (R230). -/
theorem exec_init_uninit (s : State) (hf : s.fault = none) (hl : s.life = .uninit) :
    exec (.init 2 48000) s = .next (((s.withVoice (loadDefaults s.cfg.math)).withLife .ready).withResp errNone) := by
  show whenRunning s _ = _
  rw [whenRunning_none _ _ hf, hl]
  rfl

/-- Settles O12: `LOAD_DEFAULTS` gives the table of R36, and the default `EXP2` answers 1.0 at 0. -/
theorem initLoadsTheDefaults : Obligations.InitLoadsTheDefaults := by
  unfold Obligations.InitLoadsTheDefaults
  intro s hf hl
  refine ⟨?_, fun hm => ?_⟩
  · rw [exec_init_uninit s hf hl, loadDefaults_eq]
    rfl
  · rw [hm]
    decide +kernel

end Sys2Proof.Machine
end

section
/-! Proofs of the family 20_memory.md. What a fault-free `SET_PARAM` and a fault-free `RENDER` answer, that the output
buffer stays within its capacity, that no command reads it, and that the commands with no effect and the answering
commands write nothing but `RESP` and `FAULT`. -/

namespace Sys2Proof.Machine

open Sys2Proof.Safety

/-! ### The bounds of the output buffer -/

/-- The bounds speak of `OUT` and of its capacity alone. -/
theorem outputInBounds_congr {s t : State} (hs : OutputInBounds s) (hout : t.out = s.out) (hcfg : t.cfg = s.cfg) :
    OutputInBounds t where
  wf := hout ▸ hs.wf
  bound := hout ▸ hcfg ▸ hs.bound

/-- A block that the buffer holds is written below its capacity: `n` frames write the bytes below `8 * n` (R52). -/
theorem renderFrames_outputInBounds (n : Nat) (s : State) (hs : OutputInBounds s) (hn : n ≤ s.cfg.outCapFrames) :
    OutputInBounds (renderFrames 0 n s) where
  wf := renderFrames_wf 0 n s hs.wf
  bound a ha := by
    rw [renderFrames_cfg]
    by_contra hout
    rw [renderFrames_readByte_other 0 n s a (by omega)] at ha
    exact hout (hs.bound a ha)

/-- `RENDER` checks the count against the capacity before the first frame (R263). -/
theorem execRender_outputInBounds (nf : Word) (s : State) (hs : OutputInBounds s) :
    Answers OutputInBounds (execRender nf s) := by
  have hf : ∀ r, OutputInBounds (s.withFault r) := fun _ => outputInBounds_congr hs rfl rfl
  refine .whenReady _ hf ?_
  split
  · exact .raiseFault _ _ hf
  · next hcap => exact .next (renderFrames_outputInBounds nf.toNat s hs (Nat.le_of_not_lt hcap))

theorem eq_render_of_opcode {i : Instr} (h : i.opcode = .render) : ∃ nf, i = .render nf := by
  cases i with
  | render nf => exact ⟨nf, rfl⟩
  | _ => cases h

/-- `RENDER` writes within the capacity, and no other command writes `OUT`. -/
theorem exec_outputInBounds (i : Instr) (s : State) (hs : OutputInBounds s) : Answers OutputInBounds (exec i s) := by
  by_cases hi : i.opcode = .render
  · obtain ⟨nf, rfl⟩ := eq_render_of_opcode hi
    exact execRender_outputInBounds nf s hs
  · exact fun t h => outputInBounds_congr hs ((exec_writesOwned i s t h).out hi) (exec_keeps_cfg i s t h)

/-- Settles O55: the command a step runs keeps the bounds, and an illegal word or a wait writes no byte of `OUT`. -/
theorem stepKeepsOutputInBounds : Obligations.StepKeepsOutputInBounds := by
  unfold Obligations.StepKeepsOutputInBounds
  intro s t hs hstep
  obtain ⟨-, ⟨i, rest, -, he⟩ | ⟨w0, rest, -, rfl⟩ | ⟨-, rfl⟩⟩ := step_next s t hstep
  · exact exec_outputInBounds i (s.withStream rest) (outputInBounds_congr hs rfl rfl) t he
  · exact outputInBounds_congr hs rfl rfl
  · exact hs

/-! ### A repeated `SET_PARAM` -/

/-- A `SET_PARAM` that raises no fault ran in `READY` with no fault recorded, with the index in range. -/
theorem exec_setParam_next (a : Byte) (v : Word) (s t : State) (h : exec (.setParam a v) s = .next t)
    (ht : t.fault = none) : s.fault = none ∧ s.life = .ready ∧
      ∃ ha : a.toNat < 24, t = s.withVoice (setParam s.cfg.math ⟨a.toNat, ha⟩ v s.voice) := by
  obtain ⟨hf, ⟨hl, hk⟩ | ⟨-, rfl⟩⟩ := whenReady_next _ s t _ h
  · by_cases ha : a.toNat < 24
    · rw [withSlot_lt _ a s _ ha] at hk
      cases hk
      exact ⟨hf, hl, ha, rfl⟩
    · rw [withSlot_ge _ a s _ ha] at hk
      cases hk
      cases ht
  · cases ht

/-- A derivation does not read `P`. -/
theorem derive_withP (m : MathUnit) (i : Fin 24) (w : Word) (v : Voice) (p : Vector Word 24) :
    derive m i w { v with p := p } = { derive m i w v with p := p } := by
  unfold derive
  split <;> rfl

/-- A derivation from the same value finds its registers as it writes them. For slots 4, 5 and 7 the first rebase (R125)
leaves `ENV_L0 = ENV_LEVEL` and `ENV_N = 0`, which is what the second writes. -/
theorem derive_derive (m : MathUnit) (i : Fin 24) (w : Word) (v : Voice) :
    derive m i w (derive m i w v) = derive m i w v := by
  unfold derive
  split
  case h_5 => by_cases h : v.env.stage = .attack <;> simp [deriveAttack, envRebase, h]
  case h_6 => by_cases h : v.env.stage = .decay <;> simp [deriveDecay, envRebase, h]
  case h_8 => by_cases h : v.env.stage = .release <;> simp [deriveRelease, envRebase, h]
  case h_13 => simp only [*]
  all_goals rfl

theorem setParam_setParam (m : MathUnit) (i : Fin 24) (w : Word) (v : Voice) :
    setParam m i w (setParam m i w v) = setParam m i w v := by
  simp only [setParam, derive_withP, derive_derive, Vector.set_set]

/-- Settles O21: the second command stores the value already stored and derives the registers already derived. -/
theorem setParamIdempotent : Obligations.SetParamIdempotent := by
  unfold Obligations.SetParamIdempotent
  intro s t a v _ ht h
  obtain ⟨-, hl, ha, rfl⟩ := exec_setParam_next a v s t h ht
  rw [exec_setParam_usable a v _ ht hl ha, State.withVoice_voice, State.withVoice_cfg, setParam_setParam]
  rfl

/-! ### No command reads `OUT` -/

/-- Two outcomes that differ at most in the `OUT` of their next states. -/
inductive SameButOut : Result → Result → Prop where
  | next (t : State) (m : Memory) : SameButOut (.next t) (.next (t.withOut m))
  | fault (r : Fault) : SameButOut (.fault r) (.fault r)
  | refused (r : Refusal) : SameButOut (.refused r) (.refused r)

section

variable {s : State} {m : Memory}

/-- The fault check does not read `OUT`. -/
theorem SameButOut.whenRunning {k l : Result} (h : SameButOut k l) :
    SameButOut (whenRunning s k) (whenRunning (s.withOut m) l) := by
  cases hf : s.fault with
  | none => rwa [whenRunning_none s k hf, whenRunning_none (s.withOut m) l hf]
  | some r =>
    rw [whenRunning_some s r k hf, whenRunning_some (s.withOut m) r l hf]
    exact .fault _

theorem SameButOut.raiseFault (code : FaultCode) (w0 : Word) :
    SameButOut (raiseFault code w0 s) (raiseFault code w0 (s.withOut m)) := .next _ m

theorem SameButOut.ite {c : Prop} [Decidable c] {k k' l l' : Result} (hk : SameButOut k k') (hl : SameButOut l l') :
    SameButOut (if c then k else l) (if c then k' else l') := by
  split
  · exact hk
  · exact hl

/-- The lifecycle check does not read `OUT`. -/
theorem SameButOut.whenReady (i : Instr) {k l : Result} (h : SameButOut k l) :
    SameButOut (whenReady i s k) (whenReady i (s.withOut m) l) := .whenRunning (.ite h (.raiseFault _ _))

/-- The index check does not read `OUT`. -/
theorem SameButOut.withSlot (i : Instr) (a : Byte) {k l : Fin 24 → Result} (h : ∀ n, SameButOut (k n) (l n)) :
    SameButOut (withSlot i a s k) (withSlot i a (s.withOut m) l) := by
  unfold Machine.withSlot
  split
  · exact .raiseFault _ _
  · exact h _

end

theorem execInit_sameButOut (ch : Byte) (rate : Word) (s : State) (m : Memory) :
    SameButOut (execInit ch rate s) (execInit ch rate (s.withOut m)) := by
  refine .whenRunning ?_
  rw [State.withOut_life]
  cases s.life with
  | uninit => exact .ite (.next _ m) (.ite (.next _ m) (.next _ m))
  | ready => exact .raiseFault _ _
  | failed => exact .raiseFault _ _

theorem execTeardown_sameButOut (s : State) (m : Memory) : SameButOut (execTeardown s) (execTeardown (s.withOut m)) := by
  refine .whenRunning ?_
  rw [State.withOut_life]
  cases s.life <;> exact .next _ m

/-- The frames of a render do not read `OUT`: the registers evolve without it. -/
theorem renderFrames_withOut (k n : Nat) (s : State) (m : Memory) :
    renderFrames k n (s.withOut m) = (renderFrames k n s).withOut (renderFrames k n (s.withOut m)).out := by
  rw [renderFrames_eq k n s]
  exact renderFrames_eq k n (s.withOut m)

/-- A command does the same, but for `OUT`, whatever `OUT` holds (R57). -/
theorem exec_sameButOut (i : Instr) (s : State) (m : Memory) : SameButOut (exec i s) (exec i (s.withOut m)) := by
  cases i with
  | init ch rate => exact execInit_sameButOut ch rate s m
  | teardown => exact execTeardown_sameButOut s m
  | reset => exact .whenReady _ (.next _ m)
  | resume => exact .whenReady _ (.next _ m)
  | suspend => exact .whenReady _ (.next _ m)
  | setParam a v => exact .whenReady _ (.withSlot _ _ fun _ => .next _ m)
  | getParam a => exact .whenReady _ (.withSlot _ _ fun _ => .next _ m)
  | getParamStr a v => exact .whenReady _ (.withSlot _ _ fun _ => .next _ m)
  | getParamBmp a v => exact .whenReady _ (.withSlot _ _ fun _ => .next _ m)
  | noteOn n vel => exact .whenReady _ (.ite (.next _ m) (.raiseFault _ _))
  | noteOff n => exact .whenReady _ (.ite (.next _ m) (.raiseFault _ _))
  | allNoteOff =>
    refine .whenReady _ ?_
    rw [State.withOut_cfg]
    split <;> exact .next _ m
  | pitchBend pb => exact .whenReady _ (.next _ m)
  | channelPressure pr => exact .whenReady _ (.next _ m)
  | aftertouch n val => exact .whenReady _ (.next _ m)
  | loadPreset pi => exact .whenReady _ (.next _ m)
  | getPresetIndex => exact .whenReady _ (.next _ m)
  | getPresetName pi => exact .whenReady _ (.next _ m)
  | render nf =>
    refine .whenReady _ (.ite (.raiseFault _ _) ?_)
    rw [renderFrames_withOut]
    exact .next _ _

/-- A `RENDER` that raises no fault ran in `READY` with no fault recorded, with the block within the buffer. -/
theorem exec_render_next (nf : Word) (s t : State) (h : exec (.render nf) s = .next t) (ht : t.fault = none) :
    s.fault = none ∧ s.life = .ready ∧ nf.toNat ≤ s.cfg.outCapFrames ∧ t = renderFrames 0 nf.toNat s := by
  obtain ⟨hf, ⟨hl, hk⟩ | ⟨-, rfl⟩⟩ := whenReady_next _ s t _ h
  · split at hk
    · cases hk
      cases ht
    · next hcap =>
      cases hk
      exact ⟨hf, hl, Nat.le_of_not_lt hcap, rfl⟩
  · cases ht

/-- Word `j` of a rendered block is the sample of frame `j / 2`, computed from the registers alone. -/
theorem exec_render_readWord (nf : Word) (s t : State) (h : exec (.render nf) s = .next t) (ht : t.fault = none) (j : Nat)
    (hj : j < 2 * nf.toNat) : readWord t.out j = some (sampleAt s.cfg.math (j / 2) s.voice) := by
  obtain ⟨-, -, -, rfl⟩ := exec_render_next nf s t h ht
  exact renderFrames_readWord 0 nf.toNat s (j / 2) j (by omega) (by omega)

/-- Settles O44: the two outcomes differ in `OUT` alone, and the rendered words are samples of the same registers. -/
theorem outputIsNeverRead : Obligations.OutputIsNeverRead := by
  unfold Obligations.OutputIsNeverRead
  intro s t m i h
  have same : SameButOut (exec i s) (exec i (s.withOut m)) := exec_sameButOut i s m
  rw [h] at same
  generalize h' : exec i (s.withOut m) = r at same
  cases same with
  | next _ m' =>
    refine ⟨t.withOut m', h', rfl, ?_⟩
    rintro nf rfl ht j hj
    exact (exec_render_readWord nf (s.withOut m) _ h' ht j hj).trans (exec_render_readWord nf s t h ht j hj).symm

/-! ### Commands that write at most `RESP` and `FAULT` -/

/-- From `s` to `t` nothing but `RESP` and `FAULT` changed. -/
def RespAndFaultOnly (s t : State) : Prop := t = { s with resp := t.resp, fault := t.fault }

/-- An accepted command with no effect is its lifecycle check (R195 to R197, R215, R216, R236). -/
theorem exec_noOp (i : Instr) (s : State) (h : isNoOp i = true) : exec i s = whenReady i s (.next s) := by
  cases i with
  | resume | suspend | pitchBend | channelPressure | aftertouch | loadPreset => rfl
  | _ => cases h

theorem exec_noOp_respAndFaultOnly (i : Instr) (s : State) (h : isNoOp i = true) :
    Answers (RespAndFaultOnly s) (exec i s) := by
  rw [exec_noOp i s h]
  exact .whenReady i (fun _ => rfl) (.next rfl)

/-- The answering commands but `INIT` only answer (R162, R237 to R240). -/
theorem exec_answer_respAndFaultOnly (i : Instr) (s : State) (h : writesResp i = true) (hi : i.opcode ≠ .init) :
    Answers (RespAndFaultOnly s) (exec i s) := by
  have hf : ∀ r, RespAndFaultOnly s (s.withFault r) := fun _ => rfl
  cases i with
  | init => exact absurd rfl hi
  | getParam | getParamStr | getParamBmp => exact .whenReady _ hf (.withSlot _ _ hf fun _ => .next rfl)
  | getPresetIndex | getPresetName => exact .whenReady _ hf (.next rfl)
  | _ => cases h

theorem isNoOp_writesResp {i : Instr} (h : isNoOp i = true) : writesResp i = false := by
  cases i with
  | resume | suspend | pitchBend | channelPressure | aftertouch | loadPreset => rfl
  | _ => cases h

/-- Settles O48: these commands write `RESP` and `FAULT` at most, and one with no effect is no owner of `RESP`. -/
theorem answerAndNoOpFrame : Obligations.AnswerAndNoOpFrame := by
  unfold Obligations.AnswerAndNoOpFrame
  intro i s t hi h
  have frame : RespAndFaultOnly s t := by
    obtain hno | ⟨hans, hinit⟩ := hi
    · exact exec_noOp_respAndFaultOnly i s hno t h
    · exact exec_answer_respAndFaultOnly i s hans hinit t h
  have resp : isNoOp i = true → t.resp = s.resp := fun hno => (exec_writesOwned i s t h).resp (isNoOp_writesResp hno)
  unfold RespAndFaultOnly at frame
  rw [frame]
  exact ⟨rfl, rfl, rfl, rfl, rfl, resp, fun _ => rfl⟩

/-! ### A step -/

/-- Settles O5: with no fault recorded the cycle hands the decoded command and the rest of the stream to `exec`. -/
theorem stepRunsTheDecodedCommand : Obligations.StepRunsTheDecodedCommand := by
  unfold Obligations.StepRunsTheDecodedCommand
  intro s i rest hf hd
  refine (whenRunning_none s _ hf).trans ?_
  rw [fetch, hd]
  rfl

end Sys2Proof.Machine
end

section
/-! Proofs of the family 30_encoding.md. When a first word selects a row, that it selects at most one, and the two
directions of the round trip between commands and bytes. -/

namespace Sys2Proof

open Sys2Proof.Safety

/-! ### When a word selects a row -/

theorem append_eq_append_iff {m n : Nat} (x x' : BitVec m) (y y' : BitVec n) :
    x ++ y = x' ++ y' ↔ x = x' ∧ y = y' := by
  constructor
  · intro h
    have hl := congrArg (BitVec.extractLsb' n m) h
    have hr := congrArg (BitVec.extractLsb' 0 n) h
    rw [BitVec.extractLsb'_append_eq_left, BitVec.extractLsb'_append_eq_left] at hl
    rw [BitVec.extractLsb'_append_eq_right, BitVec.extractLsb'_append_eq_right] at hr
    exact ⟨hl, hr⟩
  · rintro ⟨rfl, rfl⟩
    rfl

/-- A field under a mask that is all ones or all zeros. -/
theorem and_byteMask_eq_zero_iff (x : Byte) (p : Prop) [Decidable p] :
    x &&& (if p then 0xFF else 0) = 0 ↔ (p → x = 0) := by
  split
  · next hp => rw [show x &&& 0xFF = x from BitVec.and_allOnes, forall_prop_of_true hp]
  · next hp => exact iff_of_true BitVec.and_zero fun h => absurd h hp

/-- The mask by fields: `RSV` and `OPC` are always fixed, `B` but in `FAB`, `A` in `F0` and `FW` (R71). -/
theorem Format.mask_eq (f : Format) : f.mask =
    (0xFF : Byte) ++ (if f ≠ .fab then 0xFF else 0 : Byte) ++ (if f = .f0 ∨ f = .fw then 0xFF else 0 : Byte) ++
      (0xFF : Byte) := by
  cases f <;> rfl

theorem Opcode.pattern_eq (o : Opcode) : o.pattern = (0 : Byte) ++ (0 : Byte) ++ (0 : Byte) ++ o.byte := by
  cases o <;> rfl

/-- A word under a row's mask equals the row's pattern field by field. -/
theorem and_rowMask_eq_iff (r b a c opc : Byte) (p q : Prop) [Decidable p] [Decidable q] :
    (r ++ b ++ a ++ c) &&&
        ((0xFF : Byte) ++ (if p then 0xFF else 0 : Byte) ++ (if q then 0xFF else 0 : Byte) ++ (0xFF : Byte)) =
      (0 : Byte) ++ (0 : Byte) ++ (0 : Byte) ++ opc ↔
      r = 0 ∧ (p → b = 0) ∧ (q → a = 0) ∧ opc = c := by
  have allOnes (x : Byte) : x &&& 0xFF = x := BitVec.and_allOnes
  simp only [BitVec.and_append, append_eq_append_iff, and_byteMask_eq_zero_iff, allOnes, and_assoc, eq_comm (a := opc)]

/-- A word selects a row when its opcode is the row's, `RSV` is 0, and `A` and `B` are 0 where the format requires it. -/
theorem Opcode.selects_iff (o : Opcode) (w0 : Word) : o.selects w0 = true ↔
    w0.extractLsb' 24 8 = 0 ∧ (o.format ≠ .fab → fieldB w0 = 0) ∧ (o.format = .f0 ∨ o.format = .fw → fieldA w0 = 0) ∧
      o.byte = w0.extractLsb' 0 8 := by
  have fields : w0.extractLsb' 24 8 ++ fieldB w0 ++ fieldA w0 ++ w0.extractLsb' 0 8 = w0 := Machine.append_bytes w0
  rw [← and_rowMask_eq_iff, fields, ← Format.mask_eq, ← Opcode.pattern_eq, Opcode.selects, beq_iff_eq]

theorem Opcode.mem_all (o : Opcode) : o ∈ Opcode.all := by
  cases o <;> decide

theorem Opcode.selects_of_ofWord? {o : Opcode} {w0 : Word} (h : Opcode.ofWord? w0 = some o) : o.selects w0 = true :=
  List.find?_some (p := fun o : Opcode => o.selects w0) h

/-- The row a word selects is the only one. -/
theorem Opcode.ofWord?_eq_some_iff (o : Opcode) (w0 : Word) : Opcode.ofWord? w0 = some o ↔ o.selects w0 = true := by
  refine ⟨Opcode.selects_of_ofWord?, fun h => ?_⟩
  cases hp : Opcode.ofWord? w0 with
  | none => exact absurd h (List.find?_eq_none.mp hp o o.mem_all)
  | some p =>
    obtain ⟨-, -, -, ho⟩ := (o.selects_iff w0).mp h
    obtain ⟨-, -, -, hpo⟩ := (p.selects_iff w0).mp (Opcode.selects_of_ofWord? hp)
    rw [Opcode.byte_injective o p (ho.trans hpo.symm)]

theorem Opcode.ofWord?_eq_none_iff (w0 : Word) : Opcode.ofWord? w0 = none ↔ ∀ o : Opcode, ¬ o.selects w0 = true :=
  List.find?_eq_none.trans ⟨fun h o => h o o.mem_all, fun h o _ => h o⟩

/-- Settles O4: a word that no row selects fails one of the conditions of `selects_iff`, which are the cases of R76. -/
theorem unselectedWordsAreTheIllegalWords : Obligations.UnselectedWordsAreTheIllegalWords := by
  unfold Obligations.UnselectedWordsAreTheIllegalWords
  intro w0
  rw [Opcode.ofWord?_eq_none_iff]
  constructor
  · intro h
    by_contra hill
    unfold IllegalWord at hill
    push Not at hill
    obtain ⟨⟨o, hopc⟩, hrsv, hfields⟩ := hill
    obtain ⟨hA, hB⟩ := hfields o hopc
    exact h o ((o.selects_iff w0).mpr ⟨hrsv, hB, hA, hopc⟩)
  · intro hill o h
    obtain ⟨hrsv, hB, hA, hopc⟩ := (o.selects_iff w0).mp h
    obtain hundef | hrsv' | ⟨p, hp, hfield⟩ := hill
    · exact hundef o hopc
    · exact hrsv' hrsv
    · obtain rfl := Opcode.byte_injective p o (hp.trans hopc.symm)
      obtain ⟨hf, hA'⟩ | ⟨hf, hB'⟩ := hfield
      · exact hA' (hA hf)
      · exact hB' (hB hf)

/-! ### A command and its fields -/

/-- The bytes of the operand word `W1`, none where the row has no operand (R72). -/
def Opcode.operandBytes (o : Opcode) (w1 : Word) : List Byte := if o.format.hasOperand then wordBytes w1 else []

theorem encode_eq (i : Instr) : encode i = wordBytes i.word0 ++ i.opcode.operandBytes (i.operand?.getD 0) := by
  cases i <;> rfl

theorem Instr.opA_eq_zero (i : Instr) (h : i.opcode.format = .f0 ∨ i.opcode.format = .fw) : i.opA = 0 := by
  cases i with
  | teardown | reset | resume | suspend | allNoteOff | getPresetIndex | render => rfl
  | _ => exact h.elim nofun nofun

theorem Instr.opB_eq_zero (i : Instr) (h : i.opcode.format ≠ .fab) : i.opB = 0 := by
  cases i with
  | noteOn | pitchBend | aftertouch => exact absurd rfl h
  | _ => rfl

/-- A command's first word selects the command's row. -/
theorem Instr.selects_word0 (i : Instr) : i.opcode.selects i.word0 = true :=
  Laws.Layout.selects_of_fields i.opcode i.opA i.opB i.opA_eq_zero i.opB_eq_zero

/-- The fields of a command assemble to the command. -/
theorem Instr.assemble_fields (i : Instr) : i.opcode.assemble i.opA i.opB (i.operand?.getD 0) = i := by
  cases i with
  | pitchBend pb =>
    have halves : pb.extractLsb' 8 8 ++ pb.extractLsb' 0 8 = pb :=
      (BitVec.extractLsb'_append_extractLsb'_eq_extractLsb' rfl).trans BitVec.extractLsb'_eq_self
    exact congrArg Instr.pitchBend halves
  | _ => rfl

section

variable (o : Opcode) (a b : Byte) (w1 : Word)

@[simp] theorem Opcode.opcode_assemble : (o.assemble a b w1).opcode = o := by
  cases o <;> rfl

@[simp] theorem Opcode.operandBytes_assemble :
    o.operandBytes ((o.assemble a b w1).operand?.getD 0) = o.operandBytes w1 := by
  cases o <;> rfl

theorem Opcode.opA_assemble (h : o.format = .f0 ∨ o.format = .fw → a = 0) : (o.assemble a b w1).opA = a := by
  cases o with
  | teardown | reset | resume | suspend | allNoteOff | getPresetIndex | render => exact (h (by decide)).symm
  | pitchBend => exact BitVec.extractLsb'_append_eq_right
  | _ => rfl

theorem Opcode.opB_assemble (h : o.format ≠ .fab → b = 0) : (o.assemble a b w1).opB = b := by
  cases o with
  | noteOn | aftertouch => rfl
  | pitchBend => exact BitVec.extractLsb'_append_eq_left
  | _ => exact (h (by decide)).symm

/-- A row without an operand word assembles the same command whatever stands for the word. -/
theorem Opcode.assemble_of_no_operand (h : o.format.hasOperand = false) : o.assemble a b w1 = o.assemble a b 0 := by
  cases o with
  | init | setParam | getParamStr | getParamBmp | render => cases h
  | _ => rfl

end

/-- The command assembled from a word of its row has that word as its first. -/
theorem Opcode.word0_assemble (o : Opcode) (w0 w1 : Word) (h : o.selects w0 = true) :
    (o.assemble (fieldA w0) (fieldB w0) w1).word0 = w0 := by
  obtain ⟨hrsv, hB, hA, hopc⟩ := (o.selects_iff w0).mp h
  rw [Instr.word0, o.opcode_assemble, o.opA_assemble _ _ _ hA, o.opB_assemble _ _ _ hB, hopc, ← hrsv]
  exact Machine.append_bytes w0

/-! ### What the decoder reads -/

/-- Behind `W0` the decoder reads a command when the row's operand bytes stand there, and assembles it from them. -/
theorem decodeOperand_eq_command_iff (o : Opcode) (w0 : Word) (bs rest : List Byte) (i : Instr) :
    decodeOperand o w0 bs = .command i rest ↔
      ∃ w1, o.assemble (fieldA w0) (fieldB w0) w1 = i ∧ bs = o.operandBytes w1 ++ rest := by
  cases hop : o.format.hasOperand with
  | false =>
    simp only [decodeOperand, Opcode.operandBytes, hop, o.assemble_of_no_operand _ _ _ hop, Bool.false_eq_true, if_false,
      Decoded.command.injEq, List.nil_append, exists_const]
  | true =>
    simp only [decodeOperand, Opcode.operandBytes, hop, if_true]
    constructor
    · intro h
      split at h
      · cases h
      · next w1 rest' hw =>
        cases h
        exact ⟨w1, rfl, takeWord_some _ _ _ hw⟩
    · rintro ⟨w1, rfl, rfl⟩
      rw [takeWord_wordBytes]

/-- The decoder reads a command when the bytes of a word that selects a row, and the row's operand bytes, stand first. -/
theorem decode_eq_command_iff (bs rest : List Byte) (i : Instr) :
    decode bs = .command i rest ↔ ∃ o w0 w1, Opcode.selects o w0 = true ∧
      o.assemble (fieldA w0) (fieldB w0) w1 = i ∧ bs = wordBytes w0 ++ (o.operandBytes w1 ++ rest) := by
  constructor
  · intro h
    unfold decode at h
    split at h
    · cases h
    · next w0 tail hw =>
      split at h
      · cases h
      · next o ho =>
        obtain ⟨w1, hi, rfl⟩ := (decodeOperand_eq_command_iff o w0 tail rest i).mp h
        exact ⟨o, w0, w1, (o.ofWord?_eq_some_iff w0).mp ho, hi, takeWord_some _ _ _ hw⟩
  · rintro ⟨o, w0, w1, hsel, hi, rfl⟩
    simp only [decode, takeWord_wordBytes, (o.ofWord?_eq_some_iff w0).mpr hsel]
    exact (decodeOperand_eq_command_iff o w0 _ rest i).mpr ⟨w1, hi, rfl⟩

/-! ### The round trips -/

/-- Settles O2: the first word of a command selects its row, and the fields read from it assemble to the command. -/
theorem decodeOfEncode : Obligations.DecodeOfEncode := by
  unfold Obligations.DecodeOfEncode
  intro i rest
  refine (decode_eq_command_iff _ rest i).mpr ⟨i.opcode, i.word0, i.operand?.getD 0, i.selects_word0, ?_, ?_⟩
  · rw [Instr.word0, fieldA_assembled, fieldB_assembled]
    exact i.assemble_fields
  · rw [encode_eq, List.append_assoc]

/-- Settles O3: the command assembled from a selected word has that word and the operand bytes behind it as its
encoding. -/
theorem encodeOfDecode : Obligations.EncodeOfDecode := by
  unfold Obligations.EncodeOfDecode
  intro bs i rest h
  obtain ⟨o, w0, w1, hsel, rfl, rfl⟩ := (decode_eq_command_iff bs rest i).mp h
  rw [encode_eq, o.word0_assemble w0 w1 hsel, o.opcode_assemble, o.operandBytes_assemble, List.append_assoc]

/-- Settles O1: closed words, decoded by evaluation. -/
theorem sampleWordsDecode : Obligations.SampleWordsDecode := by
  unfold Obligations.SampleWordsDecode
  decide

end Sys2Proof
end

section
/-! Proofs of the family 40_oscillator.md. What `OSC_PLAY` writes and returns, the corners of `BLEP`, and the bound of the
triangle. -/

namespace Sys2Proof.Machine

open Sys2Proof.Safety

/-! ### The triangle -/

/-- The distance of the phase from 0.5 is at most 0.5, so its quadruple is at most 2 and the sample lies in [-1, 1]. -/
theorem triSample_range (ph : F32) (h : InRange ph 0 0x3F800000) : InRange (triSample ph) 0xBF800000 0x3F800000 := by
  have v0 : fVal 0 = 0 := by decide
  have vhalf : fVal 0x3F000000 = 2 ^ 148 := by decide
  have vneghalf : fVal 0xBF000000 = -2 ^ 148 := by decide
  have v1 : fVal 0x3F800000 = 2 ^ 149 := by decide
  have vneg1 : fVal 0xBF800000 = -2 ^ 149 := by decide
  have v2 : fVal 0x40000000 = 2 ^ 150 := by decide
  have v4 : fVal 0x40800000 = 2 ^ 151 := by decide
  obtain ⟨fph, ph0, ph1⟩ := (inRange_iff _ _ _ (by decide) (by decide)).mp h
  have offset : InRange (fsub ph 0x3F000000) 0xBF000000 0x3F000000 :=
    ⟨le_fsub _ _ _ fph (by decide) (by decide) (by omega), fsub_le _ _ _ fph (by decide) (by decide) (by omega)⟩
  obtain ⟨foff, off0, off1⟩ := (inRange_iff _ _ _ (by decide) (by decide)).mp offset
  have fdist : isFinite (fabs (fsub ph 0x3F000000)) = true := (isFinite_fabs _).trans foff
  have dist0 : 0 ≤ fVal (fabs (fsub ph 0x3F000000)) := fVal_fabs _ ▸ abs_nonneg _
  have dist1 : fVal (fabs (fsub ph 0x3F000000)) ≤ 2 ^ 148 := fVal_fabs _ ▸ abs_le.mpr ⟨by omega, by omega⟩
  have drop : InRange (fmul 0x40800000 (fabs (fsub ph 0x3F000000))) 0 0x40000000 :=
    ⟨le_fmul _ _ _ (by decide) fdist (by decide) (by rw [v0, v4]; omega),
      fmul_le _ _ _ (by decide) fdist (by decide) (by rw [v2, v4]; omega)⟩
  obtain ⟨fdrop, drop0, drop1⟩ := (inRange_iff _ _ _ (by decide) (by decide)).mp drop
  exact ⟨le_fsub _ _ _ (by decide) fdrop (by decide) (by omega), fsub_le _ _ _ (by decide) fdrop (by decide) (by omega)⟩

/-- A magnitude bound, from the range it stands for. -/
theorem fle_fabs_of_inRange (x c : F32) (hc : isFinite c = true) (h : InRange x (fneg c) c) : fle (fabs x) c = true := by
  obtain ⟨fx, lo, hi⟩ := (inRange_iff _ _ _ ((isFinite_fneg c).trans hc) hc).mp h
  rw [fVal_fneg] at lo
  exact (fle_iff _ _ ((isFinite_fabs x).trans fx) hc).mpr (fVal_fabs x ▸ abs_le.mpr ⟨lo, hi⟩)

/-- Settles O36: the sample lies in [-1, 1]. -/
theorem triangleBounded : Obligations.TriangleBounded := by
  unfold Obligations.TriangleBounded
  intro ph h0 h1
  exact fle_fabs_of_inRange _ _ (by decide) (triSample_range ph ⟨h0, h1⟩)

/-! ### The corners of `BLEP` -/

/-- `0.0 / x = 0.0` for a positive `x`. -/
theorem zero_fdiv (x : F32) (h : FinitePos x) : fdiv 0 x = 0 := by
  have mag := h.fMag
  have pos : 0 < fMag x := by
    have := h.2
    omega
  have zero : roundMag 0 (fMag x) = roundMag 0 1 := by simpa using roundMag_scale (fMag x) 0 1 pos Nat.one_pos
  rw [fdiv_finite 0 x (by decide) h.1 (by omega), h.fSign, show fMag 0 = 0 by decide, Nat.zero_mul, zero]
  decide

/-- Phase 0 is within the first window of `BLEP`, at `x = 0`. -/
theorem blep_zero (dt : F32) (h : FinitePos dt) : blep 0 dt = 0xBF800000 := by
  have first : flt 0 dt = true := (flt_iff _ _ (by decide) h.1).mpr h.2
  simp only [blep, if_pos first, zero_fdiv dt h]
  decide +kernel

/-- Phase 1 is within the second window of `BLEP`, at `x = 0`, where `1.0 - dt` rounds below 1.0. -/
theorem blep_one (dt : F32) (h : FinitePos dt) (hhi : fle dt 0x3F800000 = true)
    (hlo : flt (fsub 0x3F800000 dt) 0x3F800000 = true) : blep 0x3F800000 dt = 0x3F800000 := by
  have first : ¬ flt 0x3F800000 dt = true := by
    rw [flt_iff _ _ (by decide) h.1]
    exact not_lt.mpr ((fle_iff _ _ h.1 (by decide)).mp hhi)
  have start : fsub 0x3F800000 0x3F800000 = 0 := by decide +kernel
  simp only [blep, if_neg first, if_pos hlo, start, zero_fdiv dt h]
  decide +kernel

/-- An increment of at least the gap between 1.0 and the pattern before it brings `1.0 - dt` to at most that pattern. -/
theorem one_fsub_lt_one (dt : F32) (h : isFinite dt = true) (hdt : 2 ^ 125 ≤ fVal dt) :
    flt (fsub 0x3F800000 dt) 0x3F800000 = true := by
  have v1 : fVal 0x3F800000 = 2 ^ 149 := by decide
  have vbelow : fVal 0x3F7FFFFF = 2 ^ 149 - 2 ^ 125 := by decide
  exact flt_of_fle_of_flt _ 0x3F7FFFFF _ (fsub_le _ _ _ (by decide) h (by decide) (by omega)) (by decide)

/-- Settles O35: both corners are at `x = 0` of their window, and `1.0 - dt` rounds below 1.0 from `dt = 1/48000` on. -/
theorem blepCorners : Obligations.BlepCorners := by
  unfold Obligations.BlepCorners
  intro dt hlo hhi
  have least : fdiv (f32OfInt 1) (f32OfInt 48000) = 0x37AEC33E := by decide +kernel
  rw [least] at hlo
  have pos : FinitePos dt := .of_inRange (by decide) (by decide) ⟨hlo, hhi⟩
  have gap : 2 ^ 125 ≤ fVal dt := by
    have vleast : 2 ^ 125 ≤ fVal 0x37AEC33E := by decide
    exact vleast.trans ((fle_iff _ _ (by decide) pos.1).mp hlo)
  exact ⟨blep_zero dt pos, blep_one dt pos (fle_trans _ _ _ hhi (by decide)) (one_fsub_lt_one dt pos.1 gap)⟩

/-! ### `OSC_PLAY` -/

/-- Settles O34: the constants of R100 and R101 are the conversions of 48000 and 1. -/
theorem oscillatorPlays : Obligations.OscillatorPlays := by
  unfold Obligations.OscillatorPlays
  intro freq pw o
  have rate : f32OfInt 48000 = sampleRate := by decide +kernel
  have one : f32OfInt 1 = 0x3F800000 := by decide +kernel
  rw [rate, one]
  exact ⟨rfl, rfl⟩

end Sys2Proof.Machine
end

section
/-! Proofs of the family 41_envelope.md. `ENV_STEP` phase by phase, and the first frame of a retriggered attack. -/

namespace Sys2Proof.Machine

open Sys2Proof.Safety

/-! ### Phase 1, the gate-driven transitions (R121) -/

/-- The trigger enters the attack from a stage that waits for it, or from a held stage with `RETRIG` set; its absence
enters the release from a stage it holds up. -/
theorem envGate_eq (trig retrig : Bool) (e : EnvRegs) : envGate trig retrig e =
    if trig = true ∧ (e.stage = .idle ∨ e.stage = .release ∨ (retrig = true ∧ (e.stage = .decay ∨ e.stage = .sustain)))
    then envEnter .attack e
    else if trig = false ∧ (e.stage = .attack ∨ e.stage = .decay ∨ e.stage = .sustain)
    then envEnter .release e
    else e := by
  unfold envGate
  cases trig
  case true => cases e.stage <;> simp
  case false => cases e.stage <;> simp

/-- A retrigger enters the attack from every other running stage. -/
theorem envGate_retrigger (e : EnvRegs) (h : e.stage = .decay ∨ e.stage = .sustain ∨ e.stage = .release) :
    envGate true true e = envEnter .attack e := by
  rw [envGate_eq, if_pos]
  obtain h | h | h := h <;> simp [h]

/-! ### Phase 2, the level advance (R122) -/

section
variable (e : EnvRegs)

theorem envAdvance_idle (h : e.stage = .idle) : envAdvance e = { e with level := 0 } := by
  simp only [envAdvance, h]

theorem envAdvance_attack (h : e.stage = .attack) : envAdvance e =
    if fle 0x3F800000 (rampUp e.attInc e).level = true
    then { e with stage := .decay, level := 0x3F800000, l0 := 0x3F800000, n := 0 }
    else { e with level := (rampUp e.attInc e).level, n := e.n + 1 } := by
  cases e
  cases h
  rfl

theorem envAdvance_decay (h : e.stage = .decay) : envAdvance e =
    if fle (rampDown e.decInc e).level e.susLevel = true
    then { e with stage := .sustain, level := e.susLevel, l0 := e.susLevel, n := 0 }
    else { e with level := (rampDown e.decInc e).level, n := e.n + 1 } := by
  cases e
  cases h
  rfl

theorem envAdvance_sustain (h : e.stage = .sustain) : envAdvance e = { e with level := e.susLevel } := by
  simp only [envAdvance, h]

theorem envAdvance_release (h : e.stage = .release) : envAdvance e =
    if fle (rampDown e.relInc e).level 0 = true
    then { e with stage := .idle, level := 0, l0 := 0, n := 0 }
    else { e with level := (rampDown e.relInc e).level, n := e.n + 1 } := by
  cases e
  cases h
  rfl

end

/-! ### The first frame of an attack (R127 item 4) -/

/-- `ENTER` sets the count to 0, so the next frame of a ramp covers one increment. -/
theorem rampDistance_envEnter (inc : F32) (st : EnvStage) (e : EnvRegs) (h : isFinite inc = true) :
    rampDistance inc (envEnter st e) = inc := by
  have one : f32OfInt (1 : Nat) = 0x3F800000 := by decide +kernel
  calc rampDistance inc (envEnter st e) = fmul (f32OfInt (1 : Nat)) inc := rfl
    _ = fmul 0x3F800000 inc := by rw [one]
    _ = inc := one_fmul inc h

/-- The attack starts one increment above the level it was entered from. -/
theorem rampUp_envEnter_level (inc : F32) (st : EnvStage) (e : EnvRegs) (h : isFinite inc = true) :
    (rampUp inc (envEnter st e)).level = fadd e.level inc := by
  rw [rampUp_level, rampDistance_envEnter inc st e h]
  rfl

/-- Settles O33: phase 1 enters the attack at the current level with the count at 0, and phase 2 adds one increment. -/
theorem retriggerStartsFromLevel : Obligations.RetriggerStartsFromLevel := by
  unfold Obligations.RetriggerStartsFromLevel
  intro e range stage
  have finite : isFinite e.attInc = true := isFinite_of_fle _ _ _ (by decide) (by decide) range.attInc.1 range.attInc.2
  have first : (rampUp e.attInc (envEnter .attack e)).level = fadd e.level e.attInc :=
    rampUp_envEnter_level e.attInc .attack e finite
  have step : envStep true true e = envAdvance (envEnter .attack e) := congrArg envAdvance (envGate_retrigger e stage)
  have inc : (envEnter .attack e).attInc = e.attInc := rfl
  rw [step, envAdvance_attack _ rfl, inc, first, apply_ite EnvRegs.level]

/-! ### `ENV_STEP` -/

/-- Settles O32: the two phases by their equations; the constant 1.0 is the conversion of 1. -/
theorem envelopeStepRule : Obligations.EnvelopeStepRule := by
  unfold Obligations.EnvelopeStepRule
  intro trig retrig e
  have one : f32OfInt 1 = 0x3F800000 := by decide +kernel
  rw [one]
  exact ⟨rfl, envGate_eq trig retrig e, envAdvance_idle e, envAdvance_attack e, envAdvance_decay e, envAdvance_sustain e,
    envAdvance_release e⟩

end Sys2Proof.Machine
end

section
/-! Proofs of the family 42_filter.md. What `FILT_PLAY` leaves where the guard passes and where it fires, and the ranges of
the gain registers along every step. -/

namespace Sys2Proof.Machine

open Sys2Proof.Safety

/-! ### `FILT_SET` -/

/-- Settles O37: the constants of R141 are the conversions of 48000, 1 and 2. -/
theorem filterCoefficients : Obligations.FilterCoefficients := by
  unfold Obligations.FilterCoefficients
  intro m fc q f
  have rate : f32OfInt 48000 = 0x473B8000 := by decide +kernel
  have one : f32OfInt 1 = 0x3F800000 := by decide +kernel
  have two : f32OfInt 2 = 0x40000000 := by decide +kernel
  rw [rate, one, two]
  rfl

/-! ### The runaway guard (R144) -/

theorem inGuard_zero : inGuard 0 = true := by decide

section
variable (x : F32) (f : FltRegs)

theorem guardPasses_iff : guardPasses x f = true ↔
    inGuard (filtY x f) = true ∧ inGuard (filtZ1 x f) = true ∧ inGuard (filtZ2 x f) = true := by
  simp only [guardPasses, Bool.and_eq_true, and_assoc]

theorem filtOut_of_passes (h : guardPasses x f = true) : filtOut x f = filtY x f := if_pos h

theorem filtNext_of_passes (h : guardPasses x f = true) :
    filtNext x f = { f with z1 := filtZ1 x f, z2 := filtZ2 x f } := if_pos h

theorem filtOut_of_fires (h : guardPasses x f = false) : filtOut x f = 0 := if_neg (by simp [h])

theorem filtNext_of_fires (h : guardPasses x f = false) : filtNext x f = { f with z1 := 0, z2 := 0 } :=
  if_neg (by simp [h])

/-- The output is the value that passed the guard, or 0. -/
theorem filtOut_inGuard : inGuard (filtOut x f) = true := by
  cases h : guardPasses x f with
  | true =>
    rw [filtOut_of_passes x f h]
    exact ((guardPasses_iff x f).mp h).1
  | false =>
    rw [filtOut_of_fires x f h]
    exact inGuard_zero

/-- The delay memory is the pair that passed the guard, or 0, whatever it was before. -/
theorem filtNext_bounded : FilterBounded (filtNext x f) := by
  cases h : guardPasses x f with
  | true =>
    rw [filtNext_of_passes x f h]
    exact ((guardPasses_iff x f).mp h).2
  | false =>
    rw [filtNext_of_fires x f h]
    exact ⟨inGuard_zero, inGuard_zero⟩

end

/-- Settles O38: the three values left are those the guard tested, or 0. -/
theorem guardBoundsTheFilter : Obligations.GuardBoundsTheFilter := by
  unfold Obligations.GuardBoundsTheFilter
  intro x f
  refine ⟨filtOut_inGuard x f, filtNext_bounded x f, fun h => ?_⟩
  rw [filtNext_of_fires x f h]
  exact ⟨filtOut_of_fires x f h, rfl, rfl⟩

/-- A derivation writes no register of the filter. -/
theorem derive_flt (m : MathUnit) (i : Fin 24) (w : Word) (v : Voice) : (derive m i w v).flt = v.flt := by
  unfold derive
  split <;> rfl

theorem filterBounded_invariant (m : MathUnit) : VoiceInvariant m fun v => FilterBounded v.flt where
  loadDefaults := by
    rw [loadDefaults_eq]
    exact ⟨inGuard_zero, inGuard_zero⟩
  resetVoice _ h := h
  clearVoice _ _ := ⟨inGuard_zero, inGuard_zero⟩
  setParam i w v h := by
    rw [setParam, derive_flt]
    exact h
  noteOn _ _ _ h := h
  gate _ _ h := h
  frame _ _ := filtNext_bounded _ _

/-! ### The gain registers (R170, R178, R190) -/

/-- A part of a positive whole is a fraction in [0, 1]. -/
theorem fdiv_unitRange (a b : F32) (hb : FinitePos b) (h : InRange a 0 b) : InRange (fdiv a b) 0 0x3F800000 := by
  obtain ⟨fa, a0, a1⟩ := (inRange_iff a 0 b (by decide) hb.1).mp h
  have v0 : fVal 0 = 0 := by decide
  have v1 : fVal 0x3F800000 = 2 ^ 149 := by decide
  exact ⟨le_fdiv _ _ _ fa hb.1 (by decide) hb.2 (by rw [v0]; omega),
    fdiv_le _ _ _ fa hb.1 (by decide) hb.2 (by rw [v1]; omega)⟩

/-- The complement of a fraction in [0, 1]. -/
theorem one_fsub_unitRange (a : F32) (h : InRange a 0 0x3F800000) : InRange (fsub 0x3F800000 a) 0 0x3F800000 := by
  obtain ⟨fa, a0, a1⟩ := (inRange_iff a _ _ (by decide) (by decide)).mp h
  have v0 : fVal 0 = 0 := by decide
  exact ⟨le_fsub _ _ _ (by decide) fa (by decide) (by omega), fsub_le _ _ _ (by decide) fa (by decide) (by omega)⟩

/-- A velocity of the domain (R73) over 127.0 (R190). -/
theorem velocity_unitRange (vel : Byte) (h : inNoteDomain vel = true) :
    InRange (fdiv (f32OfInt vel.toNat) 0x42FE0000) 0 0x3F800000 := by
  have zero : f32OfInt (0 : Nat) = 0 := by decide +kernel
  have top : f32OfInt (127 : Nat) = 0x42FE0000 := by decide +kernel
  exact fdiv_unitRange _ _ (by decide)
    (zero ▸ top ▸ f32OfInt_range vel.toNat 0 127 (Nat.zero_le _) (of_decide_eq_true h))

/-- An intensity of 0 to 100 percent (R170). -/
theorem intensity_unitRange (k : Nat) (h : k ≤ 100) : InRange (intensity k) 0 0x3F800000 := by
  have zero : f32OfInt (0 : Nat) = 0 := by decide +kernel
  have top : f32OfInt (100 : Nat) = 0x42C80000 := by decide +kernel
  exact fdiv_unitRange _ _ (by decide) (zero ▸ top ▸ f32OfInt_range k 0 100 (Nat.zero_le _) h)

/-- The two depths sum to at most 1 after both roundings, at each of the 101 settings of `AMP_INT`. -/
theorem intensity_add_complement_le (k : Nat) (h : k ≤ 100) :
    fle (fadd (intensity k) (fsub 0x3F800000 (intensity k))) 0x3F800000 = true := by
  have settings : ∀ k : Fin 101,
      fle (fadd (intensity k.val) (fsub 0x3F800000 (intensity k.val))) 0x3F800000 = true := by decide +kernel
  exact settings ⟨k, by omega⟩

/-- Of the derivations only that of slot 8 writes a gain register. -/
theorem derive_gainInRange (m : MathUnit) (i : Fin 24) (w : Word) (v : Voice) (h : GainInRange v.note) :
    GainInRange (derive m i w v).note := by
  unfold derive
  split
  case h_9 hi =>
    obtain rfl : i = 8 := Fin.ext hi
    obtain ⟨h0, h1⟩ := clampi_range w.toInt 0 100 (by decide)
    obtain ⟨k, hk⟩ := Int.eq_ofNat_of_zero_le h0
    have setting : clampedParam 8 w = k := hk
    have depth := intensity_unitRange k (by omega)
    rw [setting]
    exact { h with
      ampDepth := depth
      ampRev := one_fsub_unitRange _ depth
      total := intensity_add_complement_le k (by omega) }
  all_goals exact { h with }

theorem loadDefaults_gainInRange (m : MathUnit) : GainInRange (loadDefaults m).note := by
  have zero : InRange 0 0 0x3F800000 := by decide
  have one : InRange 0x3F800000 0 0x3F800000 := by decide
  have total : fle (fadd 0x3F800000 0) 0x3F800000 = true := by decide +kernel
  rw [loadDefaults_eq]
  exact ⟨zero, one, zero, total⟩

/-- A command keeps the gain registers in their ranges. `NOTE_ON` does so by the check of its velocity, which is why this
is no `VoiceInvariant`; the others that write one are `INIT`, `SET_PARAM` and `TEARDOWN`, which leaves `READY`. -/
theorem exec_gainInRange (i : Instr) (s : State) (hs : HoldsWhenReady (fun v => GainInRange v.note) s) :
    Answers (HoldsWhenReady fun v => GainInRange v.note) (exec i s) := by
  have hf : ∀ r, HoldsWhenReady (fun v => GainInRange v.note) (s.withFault r) := fun _ => hs
  cases i with
  | init ch rate =>
    refine .whenRunning ?_
    split
    · exact .raiseFault _ _ hf
    · exact .raiseFault _ _ hf
    · exact .ite (.next nofun) (.ite (.next nofun) (.next fun _ => loadDefaults_gainInRange _))
  | teardown => exact execTeardown_holdsWhenReady hs
  | setParam a w =>
    exact .whenReady _ hf (.withSlot _ _ hf fun n => .next fun h => derive_gainInRange _ n w _ (hs h))
  | noteOn n vel =>
    refine .whenReady _ hf ?_
    split
    · next domain =>
      rw [Bool.and_eq_true] at domain
      exact .next fun h => { hs h with velAmp := velocity_unitRange vel domain.2 }
    · exact .raiseFault _ _ hf
  | noteOff => exact .whenReady _ hf (.ite (.next hs) (.raiseFault _ _ hf))
  | reset | allNoteOff => exact .whenReady _ hf (.next (by split <;> exact hs))
  | getParam | getParamStr | getParamBmp => exact .whenReady _ hf (.withSlot _ _ hf fun _ => .next hs)
  | resume | suspend | pitchBend | channelPressure | aftertouch | loadPreset | getPresetIndex | getPresetName =>
    exact .whenReady _ hf (.next hs)
  | render nf =>
    refine .whenReady _ hf (.ite (.raiseFault _ _ hf) (.next fun h => ?_))
    rw [renderFrames_life] at h
    rw [renderFrames_voice, (voiceAfter_keeps _ _ _).note]
    exact hs h

/-- A step keeps them: the command it runs does, and an illegal word or a wait writes no register. -/
theorem step_gainInRange (s t : State) (hs : HoldsWhenReady (fun v => GainInRange v.note) s) (h : step s = .next t) :
    HoldsWhenReady (fun v => GainInRange v.note) t := by
  obtain ⟨-, ⟨i, rest, -, he⟩ | ⟨w0, rest, -, rfl⟩ | ⟨-, rfl⟩⟩ := step_next s t h
  · exact exec_gainInRange i (s.withStream rest) hs t he
  · exact hs
  · exact hs

/-- Settles O58: the guard bounds the delay memory after every frame; the writers of the gain registers are
`SET_PARAM AMP_INT`, `NOTE_ON` with its checked velocity, and `INIT`. -/
theorem stepKeepsFilterAndGainInRange : Obligations.StepKeepsFilterAndGainInRange := by
  unfold Obligations.StepKeepsFilterAndGainInRange
  intro s t hs hstep ready
  exact ⟨(filterBounded_invariant s.cfg.math).step (fun h => (hs h).1) hstep ready,
    step_gainInRange s t (fun h => (hs h).2) hstep ready⟩

end Sys2Proof.Machine
end

section
/-! Proofs of the family 43_parameters.md. What `SET_PARAM` and `GET_PARAM` answer while the block is usable, which
registers the derivation of each slot writes, and the ranges of the router's outputs. -/

namespace Sys2Proof.Machine

open Sys2Proof.Safety

/-! ### `GET_PARAM` (R162) -/

/-- `GET_PARAM` on a slot in range. -/
theorem exec_getParam_usable (a : Byte) (s : State) (hf : s.fault = none) (hl : s.life = .ready) (h : a.toNat < 24) :
    exec (.getParam a) s = .next (s.withResp s.voice.p[a.toNat]) :=
  (whenReady_usable _ s _ hf hl).trans (withSlot_lt _ a s _ h)

/-- Settles O19: the lifecycle check, then the index check, then the read. -/
theorem getParamRule : Obligations.GetParamRule := by
  unfold Obligations.GetParamRule
  intro s a hf
  refine ⟨fun hl => whenReady_notReady _ s _ hf hl, fun hl ha => ?_, fun hl ha => exec_getParam_usable a s hf hl ha⟩
  exact (whenReady_usable _ s _ hf hl).trans (withSlot_ge _ a s _ (Nat.not_lt.mpr ha))

/-! ### `SET_PARAM` (R161, R163 to R171) -/

/-- `SET_PARAM` on a slot in range stores the value and derives the registers, in either order. -/
theorem exec_setParam_stored (a : Byte) (v : Word) (s : State) (hf : s.fault = none) (hl : s.life = .ready)
    (h : a.toNat < 24) :
    exec (.setParam a v) s = .next (s.withVoice
      { derive s.cfg.math ⟨a.toNat, h⟩ v s.voice with p := s.voice.p.set a.toNat v h }) := by
  rw [exec_setParam_usable a v s hf hl h, setParam, derive_withP]

/-- Settles O20: no derivation writes `P`, so the read finds the array with one slot written. -/
theorem paramRoundTrip : Obligations.ParamRoundTrip := by
  unfold Obligations.ParamRoundTrip
  rintro s a b v ⟨hf, hl⟩ ha hb
  refine ⟨_, _, exec_setParam_stored a v s hf hl ha, exec_getParam_usable b _ ?fault ?life hb, ?resp⟩
  case fault => exact hf
  case life => exact hl
  case resp => simp only [State.withResp_resp, State.withVoice_voice, Vector.getElem_set, BitVec.toNat_inj]

/-- Settles O22: slots 0 and 2; the offset 32.0 of R166 is the conversion of 32. -/
theorem setNoteAndCutoffRule : Obligations.SetNoteAndCutoffRule := by
  unfold Obligations.SetNoteAndCutoffRule
  have offset : f32OfInt 32 = 0x42000000 := by decide +kernel
  rw [offset]
  rintro s v ⟨hf, hl⟩
  constructor
  · exact exec_setParam_stored 0 v s hf hl (by decide)
  · exact exec_setParam_stored 2 v s hf hl (by decide)

/-- R165 compares the value as an integer, which is comparing the words. -/
theorem waveShape_toInt (v : Word) : waveShape v.toInt = if v = 1 then .rect else if v = 2 then .tri else .saw := by
  have one : v.toInt = 1 ↔ v = 1 := BitVec.toInt_inj (y := 1)
  have two : v.toInt = 2 ↔ v = 2 := BitVec.toInt_inj (y := 2)
  simp only [waveShape, one, two]

/-- Settles O23: slot 1. -/
theorem setWaveRule : Obligations.SetWaveRule := by
  unfold Obligations.SetWaveRule
  rintro s v ⟨hf, hl⟩
  rw [← waveShape_toInt]
  exact exec_setParam_stored 1 v s hf hl (by decide)

/-- Settles O24: slots 3 and 6; the constants of R167 and R169 are the conversions of 25 and 100. -/
theorem setResonanceAndSustainRule : Obligations.SetResonanceAndSustainRule := by
  unfold Obligations.SetResonanceAndSustainRule
  have step : f32OfInt 25 = 0x41C80000 := by decide +kernel
  have hundred : f32OfInt 100 = 0x42C80000 := by decide +kernel
  rw [step, hundred]
  rintro s v ⟨hf, hl⟩
  constructor
  · exact exec_setParam_stored 3 v s hf hl (by decide)
  · exact exec_setParam_stored 6 v s hf hl (by decide)

/-- Settles O25: slots 4, 5 and 7; the constants of R168 are the conversions of 1 and 48. -/
theorem setStageTimeRule : Obligations.SetStageTimeRule := by
  unfold Obligations.SetStageTimeRule
  have one : f32OfInt 1 = 0x3F800000 := by decide +kernel
  have rate : f32OfInt 48 = 0x42400000 := by decide +kernel
  rw [one, rate]
  rintro s v ⟨hf, hl⟩
  refine ⟨?_, ?_, ?_⟩
  · exact exec_setParam_stored 4 v s hf hl (by decide)
  · exact exec_setParam_stored 5 v s hf hl (by decide)
  · exact exec_setParam_stored 7 v s hf hl (by decide)

/-- Settles O26: slots 8 to 11; the constants of R170 but 0.45 are the conversions of 1, 12, 60 and 100. -/
theorem setIntensityRule : Obligations.SetIntensityRule := by
  unfold Obligations.SetIntensityRule
  have one : f32OfInt 1 = 0x3F800000 := by decide +kernel
  have twelve : f32OfInt 12 = 0x41400000 := by decide +kernel
  have sixty : f32OfInt 60 = 0x42700000 := by decide +kernel
  have hundred : f32OfInt 100 = 0x42C80000 := by decide +kernel
  rw [one, twelve, sixty, hundred]
  rintro s v ⟨hf, hl⟩
  refine ⟨?_, ?_, ?_, ?_⟩
  · exact exec_setParam_stored 8 v s hf hl (by decide)
  · exact exec_setParam_stored 9 v s hf hl (by decide)
  · exact exec_setParam_stored 10 v s hf hl (by decide)
  · exact exec_setParam_stored 11 v s hf hl (by decide)

/-- A reserved slot derives nothing (R171). -/
theorem derive_reserved (m : MathUnit) (i : Fin 24) (w : Word) (v : Voice) (h : 12 ≤ i.val) : derive m i w v = v := by
  unfold derive
  split
  case h_13 => rfl
  all_goals omega

/-- Settles O27: slots 12 to 23. -/
theorem reservedSlotRule : Obligations.ReservedSlotRule := by
  unfold Obligations.ReservedSlotRule
  rintro s a v ⟨hf, hl⟩ reserved ha t
  have stored : exec (.setParam a v) s = .next t := by
    rw [exec_setParam_stored a v s hf hl ha, derive_reserved _ _ v _ reserved]
    rfl
  have read : t.voice.p[a.toNat] = v := Vector.getElem_set_self ha
  refine ⟨stored, ?_⟩
  rw [exec_getParam_usable a t hf hl ha, read]
  rfl

/-! ### The frame of `SET_PARAM` -/

/-- From `r` to `r'` only the voice registers of slot `i` changed (R164, R166, R167, R170). -/
structure NoteFrame (i : Nat) (r r' : NoteRegs) : Prop where
  velAmp : r'.velAmp = r.velAmp
  baseNote : i ≠ 0 → r'.baseNote = r.baseNote
  cutOfs : i ≠ 2 → r'.cutOfs = r.cutOfs
  resQ : i ≠ 3 → r'.resQ = r.resQ
  ampInt : i ≠ 8 → r'.ampDepth = r.ampDepth ∧ r'.ampRev = r.ampRev
  pitchDepth : i ≠ 9 → r'.pitchDepth = r.pitchDepth
  cutDepth : i ≠ 10 → r'.cutDepth = r.cutDepth
  pwmDepth : i ≠ 11 → r'.pwmDepth = r.pwmDepth

/-- From `e` to `e'` only the envelope register of slot `i` changed and, where slot `i` sets the time of the stage `e`
is in, the two registers of the rebase (R168, R169, R125). -/
structure EnvFrame (i : Nat) (e e' : EnvRegs) : Prop where
  other : i ≠ 4 → i ≠ 5 → i ≠ 6 → i ≠ 7 → e' = e
  stage : e'.stage = e.stage
  level : e'.level = e.level
  attInc : i ≠ 4 → e'.attInc = e.attInc
  decInc : i ≠ 5 → e'.decInc = e.decInc
  relInc : i ≠ 7 → e'.relInc = e.relInc
  susLevel : i ≠ 6 → e'.susLevel = e.susLevel
  ramp : i = 6 ∨ e.stage = .idle ∨ e.stage = .sustain → e'.l0 = e.l0 ∧ e'.n = e.n

theorem NoteFrame.refl (i : Nat) (r : NoteRegs) : NoteFrame i r r := by
  constructor <;> simp

theorem EnvFrame.refl (i : Nat) (e : EnvRegs) : EnvFrame i e e := by
  constructor <;> simp

/-- The rebase of R125 stays within the frame of a slot that sets the time of a stage with a ramp. -/
theorem EnvFrame.rebase {i : Nat} {e e' : EnvRegs} {st : EnvStage} (h : EnvFrame i e e') (slot : i = 4 ∨ i = 5 ∨ i = 7)
    (time : st ≠ .idle ∧ st ≠ .sustain) : EnvFrame i e (if e.stage = st then envRebase e' else e') := by
  split
  case isTrue current =>
    subst current
    exact { h with
      other := fun h4 h5 _ h7 => by omega
      ramp := fun held => by
        obtain six | idle | sustain := held
        · omega
        · exact absurd idle time.1
        · exact absurd sustain time.2 }
  case isFalse => exact h

section
variable (m : MathUnit) (i : Fin 24) (w : Word) (v : Voice)

/-- Each of the slots 0, 2, 3 and 8 to 11 derives its own voice registers, the other slots none. -/
theorem derive_noteFrame : NoteFrame i v.note (derive m i w v).note := by
  have same : NoteFrame i v.note v.note := .refl _ _
  unfold derive
  split
  case h_1 slot => exact { same with baseNote := absurd slot }
  case h_3 slot => exact { same with cutOfs := absurd slot }
  case h_4 slot => exact { same with resQ := absurd slot }
  case h_9 slot => exact { same with ampInt := absurd slot }
  case h_10 slot => exact { same with pitchDepth := absurd slot }
  case h_11 slot => exact { same with cutDepth := absurd slot }
  case h_12 slot => exact { same with pwmDepth := absurd slot }
  all_goals exact same

/-- Each of the slots 4 to 7 derives its own envelope register, the other slots none; slots 4, 5 and 7 may rebase. -/
theorem derive_envFrame : EnvFrame i v.env (derive m i w v).env := by
  have same : EnvFrame i v.env v.env := .refl _ _
  unfold derive
  split
  case h_5 slot =>
    exact EnvFrame.rebase { same with other := absurd slot, attInc := absurd slot } (by omega) (by decide)
  case h_6 slot =>
    exact EnvFrame.rebase { same with other := fun _ => absurd slot, decInc := absurd slot } (by omega) (by decide)
  case h_7 slot => exact { same with other := fun _ _ => absurd slot, susLevel := absurd slot }
  case h_8 slot =>
    exact EnvFrame.rebase { same with other := fun _ _ _ => absurd slot, relInc := absurd slot } (by omega) (by decide)
  all_goals exact same

/-- Only slot 1 derives the shape. -/
theorem derive_shape (h : i.val ≠ 1) : (derive m i w v).osc = v.osc := by
  unfold derive
  split
  case h_2 slot => exact absurd slot h
  all_goals rfl

/-- No derivation writes the gate. -/
theorem derive_gate : (derive m i w v).gate = v.gate ∧ (derive m i w v).retrig = v.retrig := by
  unfold derive
  split <;> exact ⟨rfl, rfl⟩

end

/-- From `v` to `v'` only slot `i` of `P` and the registers of row `i` of R160 changed. -/
structure ParamFrame (i : Nat) (v v' : Voice) : Prop where
  p : ∀ j, ∀ h : j < 24, j ≠ i → v'.p[j] = v.p[j]
  gate : v'.gate = v.gate ∧ v'.retrig = v.retrig
  flt : v'.flt = v.flt
  phaseAndPw : v'.osc.phase = v.osc.phase ∧ v'.osc.pw = v.osc.pw
  shape : i ≠ 1 → v'.osc = v.osc
  env : EnvFrame i v.env v'.env
  note : NoteFrame i v.note v'.note

theorem ParamFrame.refl (i : Nat) (v : Voice) : ParamFrame i v v where
  p _ _ _ := rfl
  gate := ⟨rfl, rfl⟩
  flt := rfl
  phaseAndPw := ⟨rfl, rfl⟩
  shape _ := rfl
  env := .refl _ _
  note := .refl _ _

theorem setParam_frame (m : MathUnit) (i : Fin 24) (w : Word) (v : Voice) : ParamFrame i v (setParam m i w v) := by
  rw [setParam, derive_withP]
  exact {
    p := fun j hj other => Vector.getElem_set_ne i.isLt hj other.symm
    gate := derive_gate m i w v
    flt := derive_flt m i w v
    phaseAndPw := derive_osc m i w v
    shape := derive_shape m i w v
    env := derive_envFrame m i w v
    note := derive_noteFrame m i w v }

/-- `SET_PARAM` writes `FAULT` alone, or the registers within the frame of its slot. -/
theorem exec_setParam_frame (a : Byte) (v : Word) (s : State) :
    Answers (fun t => t = { s with voice := t.voice, fault := t.fault } ∧ ParamFrame a.toNat s.voice t.voice)
      (exec (.setParam a v) s) := by
  intro t h
  obtain ⟨hf, ⟨hl, hk⟩ | ⟨-, rfl⟩⟩ := whenReady_next _ s t _ h
  · by_cases ha : a.toNat < 24
    · rw [withSlot_lt _ a s _ ha] at hk
      cases hk
      exact ⟨rfl, setParam_frame _ ⟨a.toNat, ha⟩ v _⟩
    · rw [withSlot_ge _ a s _ ha] at hk
      cases hk
      exact ⟨rfl, .refl _ _⟩
  · exact ⟨rfl, .refl _ _⟩

/-- Settles O50: the frame of the slot, read register by register. -/
theorem setParamFrame : Obligations.SetParamFrame := by
  unfold Obligations.SetParamFrame
  intro a v s t h
  obtain ⟨frame, ⟨p, ⟨gate, retrig⟩, flt, ⟨phase, pw⟩, shape, env, note⟩⟩ := exec_setParam_frame a v s t h
  have index (b : Byte) (hb : a ≠ b) : a.toNat ≠ b.toNat := BitVec.toNat_ne.mp hb
  have osc : t.voice.osc = { s.voice.osc with shape := t.voice.osc.shape } := by
    show _ = OscRegs.mk s.voice.osc.phase _ s.voice.osc.pw
    rw [← phase, ← pw]
  have out : t.out = s.out := by rw [frame]
  exact ⟨frame, p, gate, retrig, flt, osc, fun h => shape (index 1 h),
    fun h4 h5 h6 h7 => env.other (index 4 h4) (index 5 h5) (index 6 h6) (index 7 h7), env.stage, env.level,
    fun h => env.attInc (index 4 h), fun h => env.decInc (index 5 h), fun h => env.relInc (index 7 h),
    fun h => env.susLevel (index 6 h), fun h => env.ramp (.inl (congrArg BitVec.toNat h)),
    fun h => env.ramp (.inr h), note.velAmp, fun h => note.baseNote (index 0 h), fun h => note.cutOfs (index 2 h),
    fun h => note.resQ (index 3 h), fun h => note.ampInt (index 8 h), fun h => note.pitchDepth (index 9 h),
    fun h => note.cutDepth (index 10 h), fun h => note.pwmDepth (index 11 h), fun b => by rw [out]⟩

/-! ### The router's outputs (R175 to R178) -/

/-- A value scaled by a factor in [0, 1] stays between 0 and itself, after rounding too. -/
theorem fmul_unitFactor (x e : F32) (hx : InRange x 0 0x3F800000) (he : InRange e 0 0x3F800000) :
    InRange (fmul x e) 0 x := by
  obtain ⟨fx, x0, -⟩ := (inRange_iff x _ _ (by decide) (by decide)).mp hx
  obtain ⟨fe, e0, e1⟩ := (inRange_iff e _ _ (by decide) (by decide)).mp he
  have v0 : fVal 0 = 0 := by decide
  have v1 : fVal 0x3F800000 = 2 ^ 149 := by decide
  rw [v0] at x0 e0
  rw [v1] at e1
  exact ⟨le_fmul _ _ _ fx fe (by decide) (by rw [v0, zero_mul]; exact mul_nonneg x0 e0),
    fmul_le _ _ _ fx fe fx (mul_le_mul_of_nonneg_left e1 x0)⟩

/-- The key of a rounded value that is not negative; either zero has key 0. -/
theorem roundVal_of_nonneg (z : Bool) (v : Int) (h : 0 ≤ v) :
    isNaN (roundVal z v) = false ∧ fKey (roundVal z v) = roundMag v.natAbs 1 := by
  have bound := roundMag_le_infMag v.natAbs 1
  refine ⟨isNaN_packF _ _ bound, ?_⟩
  rw [roundVal, fKey_packF _ _ bound]
  by_cases h0 : v = 0
  · subst h0
    have zero : roundMag 0 1 = 0 := by decide
    simp [zero]
  · simp [h0, Int.not_lt.mpr h]

/-- Sums of values that are not negative round in the order of their terms. -/
theorem fadd_mono {a b c d : F32} (ha : InRange a 0 c) (hb : InRange b 0 d) (hc : isFinite c = true)
    (hd : isFinite d = true) : fle (fadd a b) (fadd c d) = true := by
  have v0 : fVal 0 = 0 := by decide
  obtain ⟨fa, a0, ac⟩ := (inRange_iff a 0 c (by decide) hc).mp ha
  obtain ⟨fb, b0, bd⟩ := (inRange_iff b 0 d (by decide) hd).mp hb
  rw [v0] at a0 b0
  obtain ⟨n1, k1⟩ := roundVal_of_nonneg (fSign a && fSign b) (fVal a + fVal b) (by omega)
  obtain ⟨n2, k2⟩ := roundVal_of_nonneg (fSign c && fSign d) (fVal c + fVal d) (by omega)
  have order := roundMag_mono (fVal a + fVal b).natAbs 1 (fVal c + fVal d).natAbs 1 Nat.one_pos Nat.one_pos (by omega)
  rw [fadd, fadd, addWith_finite _ a b fa fb, addWith_finite _ c d hc hd]
  simpa [fle, n1, n2, k1, k2] using order

/-- The crossfade of R178 in [0, 1]: each term is at most its depth, so the sum is at most the sum of the depths, which
rounds to at most 1. -/
theorem crossfade_unitRange (r : NoteRegs) (env tf : F32) (h : GainInRange r) (henv : InRange env 0 0x3F800000)
    (htf : InRange tf 0 0x3F800000) : InRange (fadd (fmul r.ampDepth env) (fmul r.ampRev tf)) 0 0x3F800000 := by
  have v0 : fVal 0 = 0 := by decide
  obtain ⟨fdepth, -, -⟩ := (inRange_iff _ _ _ (by decide) (by decide)).mp h.ampDepth
  obtain ⟨frev, -, -⟩ := (inRange_iff _ _ _ (by decide) (by decide)).mp h.ampRev
  have depth := fmul_unitFactor _ _ h.ampDepth henv
  have rev := fmul_unitFactor _ _ h.ampRev htf
  obtain ⟨f1, p1, -⟩ := (inRange_iff _ _ _ (by decide) fdepth).mp depth
  obtain ⟨f2, p2, -⟩ := (inRange_iff _ _ _ (by decide) frev).mp rev
  exact ⟨le_fadd _ _ _ f1 f2 (by decide) (by omega), fle_trans _ _ _ (fadd_mono depth rev fdepth frev) h.total⟩

theorem triggerLevel_unitRange (trig : Bool) : InRange (triggerLevel trig) 0 0x3F800000 := by
  cases trig <;> decide

theorem routeGain_unitRange (r : NoteRegs) (env : F32) (trig : Bool) (h : GainInRange r)
    (henv : InRange env 0 0x3F800000) : InRange (routeGain r env (triggerLevel trig)) 0 0x3F800000 := by
  have fade := crossfade_unitRange r env _ h henv (triggerLevel_unitRange trig)
  have gain := fmul_unitFactor r.velAmp _ h.velAmp fade
  exact ⟨gain.1, fle_trans _ _ _ gain.2 h.velAmp.2⟩

/-- Settles O39: the three clamps hold whatever `EXP2` answers; the gain is a product of two values in [0, 1]. -/
theorem routerOutputsInRange : Obligations.RouterOutputsInRange := by
  unfold Obligations.RouterOutputsInRange
  intro m r env trig
  exact ⟨fclamp_range _ _ _ (by decide), fclamp_range _ _ _ (by decide), fclamp_range _ _ _ (by decide),
    routeGain_unitRange r env trig⟩

end Sys2Proof.Machine
end

section
/-! Proofs of the family 44_gate.md. The gate counter as a number, what a note event answers while the block is usable,
the count after a run of note events, the frame of the note commands, and the commands accepted with no effect. -/

namespace Sys2Proof.Machine

open Sys2Proof.Safety

/-! ### The gate counter (R24) -/

/-- The increment with its saturation tested on the count. -/
theorem gateUp_eq (g : Word) : gateUp g = if g.toNat = 2 ^ 32 - 1 then g else g + 1 := by
  have full : g.toNat = 2 ^ 32 - 1 ↔ g = 0xFFFFFFFF := BitVec.toNat_inj (y := 0xFFFFFFFF)
  simp only [gateUp, full]

/-- The decrement with its floor tested on the register. -/
theorem gateDown_eq (g : Word) : gateDown g = if g = 0 then 0 else g - 1 := by
  by_cases h : g = 0
  · subst h
    rfl
  · have pos : 0 < g.toNat := Nat.pos_of_ne_zero fun h0 => h (BitVec.eq_of_toNat_eq h0)
    rw [gateDown, if_pos pos, if_neg h]

/-- Below the saturation a note-on counts. -/
theorem gateUp_toNat (g : Word) (h : g.toNat < 2 ^ 32 - 1) : (gateUp g).toNat = g.toNat + 1 := by
  rw [gateUp_eq, if_neg h.ne, BitVec.toNat_add_of_lt]
  · rfl
  · show g.toNat + 1 < 2 ^ 32
    omega

/-- A note-off counts down, and not below 0: the subtraction of natural numbers. -/
theorem gateDown_toNat (g : Word) : (gateDown g).toNat = g.toNat - 1 := by
  unfold gateDown
  split
  · next h => exact BitVec.toNat_sub_of_le (y := 1) h
  · omega

/-- The count after one note event. -/
def gateAfter (i : Instr) (g : Word) : Word := if isNoteOn i then gateUp g else gateDown g

/-! ### The note commands in a usable block -/

theorem inNoteDomain_iff (b : Byte) : inNoteDomain b = true ↔ b.toNat ≤ 127 := decide_eq_true_iff

section
variable (n vel : Byte) (s : State)

/-- An in-domain `NOTE_ON` (R190). -/
theorem exec_noteOn_inDomain (hf : s.fault = none) (hl : s.life = .ready) (hn : n.toNat ≤ 127) (hv : vel.toNat ≤ 127) :
    exec (.noteOn n vel) s = .next (s.withVoice (noteOnVoice n vel s.voice)) := by
  rw [exec_noteOn_usable n vel s hf hl, if_pos (by simp [inNoteDomain_iff, hn, hv])]

/-- A `NOTE_ON` with an operand out of its domain (R190, R265). -/
theorem exec_noteOn_outOfDomain (hf : s.fault = none) (hl : s.life = .ready) (h : 127 < n.toNat ∨ 127 < vel.toNat) :
    exec (.noteOn n vel) s = .next { s with fault := some ⟨.domain, (Instr.noteOn n vel).word0⟩ } := by
  rw [exec_noteOn_usable n vel s hf hl, raiseFault_eq, if_neg]
  rw [Bool.and_eq_true, inNoteDomain_iff, inNoteDomain_iff]
  omega

/-- An in-domain `NOTE_OFF` (R191). -/
theorem exec_noteOff_inDomain (hf : s.fault = none) (hl : s.life = .ready) (hn : n.toNat ≤ 127) :
    exec (.noteOff n) s = .next (s.withVoice (noteOffVoice s.voice)) := by
  rw [exec_noteOff_usable n s hf hl, if_pos ((inNoteDomain_iff n).mpr hn)]

/-- A `NOTE_OFF` with its note out of the domain (R191, R265). -/
theorem exec_noteOff_outOfDomain (hf : s.fault = none) (hl : s.life = .ready) (h : 127 < n.toNat) :
    exec (.noteOff n) s = .next { s with fault := some ⟨.domain, (Instr.noteOff n).word0⟩ } := by
  rw [exec_noteOff_usable n s hf hl, raiseFault_eq, if_neg (mt (inNoteDomain_iff n).mp (by omega))]

/-- `ALL_NOTE_OFF` (R192). -/
theorem exec_allNoteOff_usable (hf : s.fault = none) (hl : s.life = .ready) :
    exec .allNoteOff s = .next (if s.cfg.allNoteOffClears then s.withVoice { s.voice with gate := 0 } else s) :=
  whenReady_usable _ s _ hf hl

end

/-- Settles O28: the lifecycle check, then the domain check, then the writes; the divisor of R190 is the conversion of
127. -/
theorem noteOnRule : Obligations.NoteOnRule := by
  unfold Obligations.NoteOnRule
  have divisor : f32OfInt 127 = 0x42FE0000 := by decide +kernel
  intro s n vel hf
  refine ⟨fun hl => whenReady_notReady _ s _ hf hl, fun hl h => exec_noteOn_outOfDomain n vel s hf hl h,
    fun hl hn hv => ?_⟩
  rw [exec_noteOn_inDomain n vel s hf hl hn hv, noteOnVoice, gateUp_eq, divisor]
  rfl

/-- Settles O29: the lifecycle check, then for `NOTE_OFF` the domain check, then the write of `GATE`. -/
theorem noteOffAndAllNoteOffRule : Obligations.NoteOffAndAllNoteOffRule := by
  unfold Obligations.NoteOffAndAllNoteOffRule
  intro s n hf
  refine ⟨fun hl => ⟨whenReady_notReady _ s _ hf hl, whenReady_notReady _ s _ hf hl⟩,
    fun hl hn => exec_noteOff_outOfDomain n s hf hl hn, fun hl hn => ?noteOff, fun hl hc => ?clears,
    fun hl hc => ?keeps⟩
  case noteOff =>
    rw [exec_noteOff_inDomain n s hf hl hn, noteOffVoice, gateDown_eq]
    rfl
  case clears =>
    rw [exec_allNoteOff_usable s hf hl, if_pos hc]
    rfl
  case keeps => rw [exec_allNoteOff_usable s hf hl, if_neg (by simp [hc])]

/-! ### A run of note events (R193 item 3) -/

/-- The first command of a run that answers a next state. -/
theorem runAll_cons_of_next {i : Instr} {rest : List Instr} {s t : State} (h : exec i s = .next t) :
    runAll (i :: rest) s = runAll rest t := by
  rw [runAll, h]

/-- A note event answers a next state that differs in the voice alone, with the event counted in `GATE`. -/
theorem exec_noteEvent (i : Instr) (s : State) (hs : Usable s) (hi : isNoteEvent i = true) :
    ∃ v, exec i s = .next (s.withVoice v) ∧ v.gate = gateAfter i s.voice.gate := by
  obtain ⟨hf, hl⟩ := hs
  cases i with
  | noteOn n vel => exact ⟨_, (exec_noteOn_usable n vel s hf hl).trans (if_pos hi), rfl⟩
  | noteOff n => exact ⟨_, (exec_noteOff_usable n s hf hl).trans (if_pos hi), rfl⟩
  | _ => cases hi

/-- A whole list is one of its own suffixes. -/
theorem sum_le_suffixMax (xs : List Int) : xs.sum ≤ suffixMax xs := by
  cases xs with
  | nil => exact le_rfl
  | cons x xs => exact le_max_left _ _

/-- The count reached from `g` by deltas: all of them on top of `g`, or the best suffix where a note-off found 0. -/
def countFrom (g : Int) (xs : List Int) : Int := max (g + xs.sum) (suffixMax xs)

theorem countFrom_nil {g : Int} (h : 0 ≤ g) : countFrom g [] = g := by
  simp [countFrom, suffixMax, h]

theorem countFrom_zero (xs : List Int) : countFrom 0 xs = suffixMax xs := by
  rw [countFrom, zero_add, max_eq_right (sum_le_suffixMax xs)]

/-- The first event moves the start, held at 0 from below. -/
theorem countFrom_cons {g : Int} (h : 0 ≤ g) (x : Int) (xs : List Int) :
    countFrom g (x :: xs) = countFrom (max (g + x) 0) xs := by
  have hle := sum_le_suffixMax xs
  simp only [countFrom, suffixMax, List.sum_cons]
  omega

/-- Below the saturation one event moves the count by its delta, held at 0 from below. -/
theorem gateAfter_toNat (i : Instr) (g : Word) (h : isNoteOn i = true → g.toNat < 2 ^ 32 - 1) :
    ((gateAfter i g).toNat : Int) = max (g.toNat + noteDelta i) 0 := by
  unfold gateAfter noteDelta
  split
  · next hon =>
    rw [gateUp_toNat g (h hon)]
    omega
  · rw [gateDown_toNat]
    omega

/-- An event that the note-ons of the run cannot saturate leaves room for the rest of them. -/
theorem gateAfter_room (i : Instr) (rest : List Instr) (g : Word)
    (h : g.toNat + (i :: rest).countP isNoteOn ≤ 2 ^ 32 - 1) :
    (gateAfter i g).toNat + rest.countP isNoteOn ≤ 2 ^ 32 - 1 := by
  unfold gateAfter
  split
  · next hon =>
    rw [List.countP_cons_of_pos hon] at h
    rw [gateUp_toNat g (by omega)]
    omega
  · next hoff =>
    rw [List.countP_cons_of_neg hoff] at h
    rw [gateDown_toNat]
    omega

/-- From any count that the note-ons of the run cannot saturate. -/
theorem runAll_noteEvents_gate (cmds : List Instr) (s : State) (hs : Usable s) (hi : ∀ i ∈ cmds, isNoteEvent i = true)
    (hc : s.voice.gate.toNat + cmds.countP isNoteOn ≤ 2 ^ 32 - 1) :
    ∃ t, runAll cmds s = .next t ∧ (t.voice.gate.toNat : Int) = countFrom s.voice.gate.toNat (cmds.map noteDelta) := by
  induction cmds generalizing s with
  | nil => exact ⟨s, whenRunning_none s _ hs.1, (countFrom_nil (Int.natCast_nonneg _)).symm⟩
  | cons i rest ih =>
    obtain ⟨v, he, hv⟩ := exec_noteEvent i s hs (hi i List.mem_cons_self)
    have unsaturated : isNoteOn i = true → s.voice.gate.toNat < 2 ^ 32 - 1 := by
      intro hon
      rw [List.countP_cons_of_pos hon] at hc
      omega
    have hroom : v.gate.toNat + rest.countP isNoteOn ≤ 2 ^ 32 - 1 := hv ▸ gateAfter_room i rest _ hc
    obtain ⟨t, ht, hcount⟩ := ih (s.withVoice v) hs (fun j hj => hi j (List.mem_cons_of_mem i hj)) hroom
    refine ⟨t, (runAll_cons_of_next he).trans ht, ?_⟩
    rw [hcount, State.withVoice_voice, hv, gateAfter_toNat i _ unsaturated, List.map_cons,
      countFrom_cons (Int.natCast_nonneg _)]

/-- Settles O30: by induction over the run from any count, and from 0 the best suffix is all there is. -/
theorem gateCountsNoteEvents : Obligations.GateCountsNoteEvents := by
  unfold Obligations.GateCountsNoteEvents
  intro cmds s hs h0 hi hc
  obtain ⟨t, ht, hgate⟩ := runAll_noteEvents_gate cmds s hs hi (by rw [h0]; simpa using hc.le)
  rw [h0] at hgate
  exact ⟨t, ht, hgate.trans (countFrom_zero _)⟩

/-! ### A note shorter than a block (R198) -/

/-- With the gate closed an idle envelope stays idle, at level 0, whatever the retrigger latch holds (R121, R122). -/
theorem envStep_closed_idle (retrig : Bool) (e : EnvRegs) (h : e.stage = .idle) :
    envStep false retrig e = { e with level := 0 } := by
  have stays : envGate false retrig e = e := by simp [envGate_eq, h]
  rw [envStep, stays, envAdvance_idle e h]

/-- A frame with the gate closed and the envelope idle. -/
theorem framePipeline_env_closed_idle (m : MathUnit) (v : Voice) (hg : v.gate = 0) (hi : v.env.stage = .idle) :
    (framePipeline m v).voice.env = { v.env with level := 0 } := by
  have closed : trigger v.gate = false := by rw [hg]; rfl
  show envStep (trigger v.gate) v.retrig v.env = _
  rw [closed, envStep_closed_idle _ _ hi]

/-- Every frame clears the retrigger latch (R121). -/
theorem framePipeline_retrig (m : MathUnit) (v : Voice) : (framePipeline m v).voice.retrig = false := rfl

/-- The registers after a note-on and a note-off with no frame between them. -/
def shortNoteVoice (n vel : Byte) (v : Voice) : Voice := noteOffVoice (noteOnVoice n vel v)

/-- The note-off takes back the count of the note-on. -/
theorem shortNoteVoice_gate (n vel : Byte) (v : Voice) (h : v.gate = 0) : (shortNoteVoice n vel v).gate = 0 := by
  show gateDown (gateUp v.gate) = 0
  rw [h]
  rfl

theorem shortNoteVoice_baseNote (n vel : Byte) (v : Voice) :
    (shortNoteVoice n vel v).note.baseNote = f32OfInt n.toNat := rfl

/-- A run that plays a short note and then one frame. -/
theorem runAll_shortNote (n vel m : Byte) (s : State) (hs : Usable s) (hn : n.toNat ≤ 127) (hv : vel.toNat ≤ 127)
    (hm : m.toNat ≤ 127) (hcap : 1 ≤ s.cfg.outCapFrames) :
    runAll [.noteOn n vel, .noteOff m, .render 1] s =
      .next (renderFrames 0 1 (s.withVoice (shortNoteVoice n vel s.voice))) := by
  obtain ⟨hf, hl⟩ := hs
  have press := exec_noteOn_inDomain n vel s hf hl hn hv
  have release := exec_noteOff_inDomain m (s.withVoice (noteOnVoice n vel s.voice)) hf hl hm
  have frame := exec_render_usable 1 (s.withVoice (shortNoteVoice n vel s.voice)) hf hl hcap
  rw [runAll_cons_of_next press, runAll_cons_of_next release]
  exact (runAll_cons_of_next frame).trans (whenRunning_none _ _ hf)

/-- Settles O31: the one frame of the run finds the gate closed and the envelope idle. -/
theorem shortNoteLeavesNoTrace : Obligations.ShortNoteLeavesNoTrace := by
  unfold Obligations.ShortNoteLeavesNoTrace
  intro s n vel m hs hn hv hm h0 hidle hcap
  have hgate := shortNoteVoice_gate n vel s.voice h0
  have henv := framePipeline_env_closed_idle s.cfg.math (shortNoteVoice n vel s.voice) hgate hidle
  have keeps := framePipeline_keeps s.cfg.math (shortNoteVoice n vel s.voice)
  refine ⟨_, runAll_shortNote n vel m s hs hn hv hm hcap, ?stage, ?level, keeps.gate.trans hgate,
    framePipeline_retrig _ _, ?note⟩
  case stage => exact (congrArg EnvRegs.stage henv).trans hidle
  case level => exact congrArg EnvRegs.level henv
  case note => exact (congrArg NoteRegs.baseNote keeps.note).trans (shortNoteVoice_baseNote n vel s.voice)

/-! ### The frame of the note commands -/

/-- From `s` to `t` nothing but `GATE` and `FAULT` changed. -/
def GateAndFaultOnly (s t : State) : Prop :=
  t = { s with fault := t.fault, voice := { s.voice with gate := t.voice.gate } }

/-- From `s` to `t` nothing but the registers of R190 and `FAULT` changed. -/
def NoteOnRegsOnly (s t : State) : Prop :=
  t = { s with
    fault := t.fault
    voice := { s.voice with
      note := { s.voice.note with baseNote := t.voice.note.baseNote, velAmp := t.voice.note.velAmp }
      gate := t.voice.gate
      retrig := t.voice.retrig } }

theorem GateAndFaultOnly.noteOnRegsOnly {s t : State} (h : GateAndFaultOnly s t) : NoteOnRegsOnly s t := by
  rw [GateAndFaultOnly] at h
  rw [NoteOnRegsOnly, h]

theorem execNoteOn_frame (n vel : Byte) (s : State) : Answers (NoteOnRegsOnly s) (execNoteOn n vel s) :=
  .whenReady _ (fun _ => rfl) (.ite (.next rfl) (.raiseFault _ _ fun _ => rfl))

theorem execNoteOff_frame (n : Byte) (s : State) : Answers (GateAndFaultOnly s) (execNoteOff n s) :=
  .whenReady _ (fun _ => rfl) (.ite (.next rfl) (.raiseFault _ _ fun _ => rfl))

theorem execAllNoteOff_frame (s : State) : Answers (GateAndFaultOnly s) (execAllNoteOff s) :=
  .whenReady _ (fun _ => rfl) (.next (by split <;> rfl))

/-- What the three note commands change; the two that are no note-on change less. -/
theorem exec_note_frame (i : Instr) (s t : State)
    (hi : i.opcode = .noteOn ∨ i.opcode = .noteOff ∨ i.opcode = .allNoteOff) (h : exec i s = .next t) :
    NoteOnRegsOnly s t ∧ (i.opcode ≠ .noteOn → GateAndFaultOnly s t) := by
  cases i with
  | noteOn n vel => exact ⟨execNoteOn_frame n vel s t h, fun hne => absurd rfl hne⟩
  | noteOff n =>
    have frame := execNoteOff_frame n s t h
    exact ⟨frame.noteOnRegsOnly, fun _ => frame⟩
  | allNoteOff =>
    have frame := execAllNoteOff_frame s t h
    exact ⟨frame.noteOnRegsOnly, fun _ => frame⟩
  | _ => simp [Instr.opcode] at hi

/-- Settles O49: every register but those the command may write is read off the frame. -/
theorem noteEventFrame : Obligations.NoteEventFrame := by
  unfold Obligations.NoteEventFrame
  intro i s t hi h
  obtain ⟨frame, gateOnly⟩ := exec_note_frame i s t hi h
  have kept : i.opcode ≠ .noteOn → t.voice.note = s.voice.note ∧ t.voice.retrig = s.voice.retrig := by
    intro hne
    have less := gateOnly hne
    rw [GateAndFaultOnly] at less
    rw [less]
    exact ⟨rfl, rfl⟩
  rw [NoteOnRegsOnly] at frame
  refine ⟨?_, ?_, ?_, ?_, ?_, ?_, ?_, ?_, ?_, ?_, kept, fun a => ?_⟩ <;> rw [frame]

/-! ### The commands accepted with no effect (R195 to R197, R215, R216, R236) -/

/-- Settles O17: such a command is its lifecycle check. -/
theorem acceptedNoOps : Obligations.AcceptedNoOps := by
  unfold Obligations.AcceptedNoOps
  intro i s hi hf
  rw [exec_noOp i s hi]
  exact ⟨fun hl => whenReady_usable i s _ hf hl, fun hl => whenReady_notReady i s _ hf hl⟩

end Sys2Proof.Machine
end

section
/-! Proofs of the family 45_render.md. `RESET`, the frame a `RENDER` adds to the one before it, what a block of frames
writes and keeps, the samples of a silent voice and the bound of every sample. -/

namespace Sys2Proof.Machine

open Sys2Proof.Safety

/-! ### A block that the buffer holds (R210) -/

section
variable {s t : State} {nf : Word}

/-- The only answer of such a `RENDER` is its frames. -/
theorem eq_renderFrames_of_exec_render (hs : Usable s) (hcap : nf.toNat ≤ s.cfg.outCapFrames)
    (h : exec (.render nf) s = .next t) : t = renderFrames 0 nf.toNat s :=
  (Host.Outcome.next.inj ((exec_render_usable nf s hs.1 hs.2 hcap).symm.trans h)).symm

/-- Its words are the samples of its frames, two words a frame (R212). -/
theorem readWord_of_exec_render (hs : Usable s) (hcap : nf.toNat ≤ s.cfg.outCapFrames)
    (h : exec (.render nf) s = .next t) (j : Nat) (hj : j < 2 * nf.toNat) :
    readWord t.out j = some (sampleAt s.cfg.math (j / 2) s.voice) := by
  obtain rfl := eq_renderFrames_of_exec_render hs hcap h
  exact exec_render_readWord nf s _ h ((renderFrames_fault _ _ _).trans hs.1) j hj

end

/-- A render changes the registers and `OUT` alone. -/
theorem renderFrames_only (k n : Nat) (s : State) : renderFrames k n s =
    { s with voice := (renderFrames k n s).voice, out := (renderFrames k n s).out } := by
  rw [renderFrames_voice]
  exact renderFrames_eq k n s

/-- The last of the frames has cleared the retrigger latch (R121). -/
theorem voiceAfter_retrig (m : MathUnit) (n : Nat) (v : Voice) (h : n ≠ 0) : (voiceAfter m n v).retrig = false := by
  obtain ⟨k, rfl⟩ := Nat.exists_eq_succ_of_ne_zero h
  rw [voiceAfter_succ, framePipeline_retrig]

/-- From `s` to `t` nothing changed but what a block of `n` frames may write, and `FAULT` (R210). -/
structure RenderFrame (n : Nat) (s t : State) : Prop where
  only : t = { s with voice := t.voice, out := t.out, fault := t.fault }
  keeps : FrameKeeps s.voice t.voice
  above : ∀ a, 8 * n ≤ a → readByte t.out a = readByte s.out a

theorem RenderFrame.withFault (n : Nat) (s : State) (r : FaultRecord) : RenderFrame n s (s.withFault r) :=
  ⟨rfl, ⟨rfl, rfl, rfl, rfl, rfl, rfl, rfl, rfl⟩, fun _ _ => rfl⟩

theorem renderFrames_frame (n : Nat) (s : State) : RenderFrame n s (renderFrames 0 n s) where
  only := by
    rw [renderFrames_fault]
    exact renderFrames_only 0 n s
  keeps := by
    rw [renderFrames_voice]
    exact voiceAfter_keeps _ _ _
  above a ha := renderFrames_readByte_other 0 n s a (by omega)

/-- Settles O41: the frames keep the registers no frame writes and the bytes above their words. -/
theorem renderCompletesInBounds : Obligations.RenderCompletesInBounds := by
  unfold Obligations.RenderCompletesInBounds
  intro s nf hs hcap
  obtain ⟨-, keeps, above⟩ := renderFrames_frame nf.toNat s
  refine ⟨_, exec_render_usable nf s hs.1 hs.2 hcap, renderFrames_only _ _ _, keeps.p, keeps.gate, keeps.note,
    keeps.attInc, keeps.decInc, keeps.relInc, keeps.susLevel, keeps.shape, above, ?none, fun h => ?latch⟩
  case none =>
    rintro rfl
    rfl
  case latch =>
    rw [renderFrames_voice]
    exact voiceAfter_retrig _ _ _ (BitVec.toNat_ne.mp h)

/-- Settles O42: words `2k` and `2k + 1` belong to the same frame. -/
theorem stereoIdentity : Obligations.StereoIdentity := by
  unfold Obligations.StereoIdentity
  intro s t nf hs hcap h k hk
  have left := readWord_of_exec_render hs hcap h (2 * k) (by omega)
  have right := readWord_of_exec_render hs hcap h (2 * k + 1) (by omega)
  have same : (2 * k + 1) / 2 = 2 * k / 2 := by omega
  exact ⟨_, left, same ▸ right⟩

/-- Settles O43: the registers after `a + b` frames are those after `b` frames from those after `a`, and so are the
samples. -/
theorem blockSplitting : Obligations.BlockSplitting := by
  unfold Obligations.BlockSplitting
  intro s a b c hs hc hcap
  have hsa : Usable (renderFrames 0 a.toNat s) :=
    ⟨(renderFrames_fault _ _ _).trans hs.1, (renderFrames_life _ _ _).trans hs.2⟩
  have hcapa : a.toNat ≤ s.cfg.outCapFrames := by omega
  have hcapb : b.toNat ≤ (renderFrames 0 a.toNat s).cfg.outCapFrames := by
    rw [renderFrames_cfg]
    omega
  have ha := exec_render_usable a s hs.1 hs.2 hcapa
  have hb := exec_render_usable b _ hsa.1 hsa.2 hcapb
  have hab := exec_render_usable c s hs.1 hs.2 hcap
  refine ⟨_, _, _, ha, hb, hab, ?registers, fun j hj => ?first, fun j hj => ?second⟩
  case registers => simp only [renderFrames_voice, renderFrames_cfg, hc, voiceAfter_add]
  case first =>
    rw [readWord_of_exec_render hs hcap hab j (by omega), readWord_of_exec_render hs hcapa ha j hj]
  case second =>
    have index : (2 * a.toNat + j) / 2 = a.toNat + j / 2 := by omega
    rw [readWord_of_exec_render hs hcap hab _ (by omega), readWord_of_exec_render hsa hcapb hb j hj, index,
      sampleAt_add, renderFrames_voice, renderFrames_cfg]

/-! ### One frame (R211) -/

/-- Settles O40: the last frame of the longer block is split off; the constants of the router are the conversions of 1,
10, 12000 and 23000. -/
theorem oneFrameRule : Obligations.OneFrameRule := by
  unfold Obligations.OneFrameRule
  intro s nf nf1 hs hnf hcap
  have one : f32OfInt 1 = 0x3F800000 := by decide +kernel
  have freqMax : f32OfInt 12000 = 0x463B8000 := by decide +kernel
  have cutMin : f32OfInt 10 = 0x41200000 := by decide +kernel
  have cutMax : f32OfInt 23000 = 0x46B3B000 := by decide +kernel
  refine ⟨exec_render_usable 0 s hs.1 hs.2 (Nat.zero_le _), _, exec_render_usable nf s hs.1 hs.2 (by omega), ?_⟩
  rw [exec_render_usable nf1 s hs.1 hs.2 hcap, hnf, renderFrames_succ, Nat.zero_add, one, freqMax, cutMin, cutMax]
  rfl

/-- A sample is a value that has passed the runaway guard times the gain of its frame (R211, R144). -/
theorem framePipeline_sample (m : MathUnit) (v : Voice) : ∃ y, inGuard y = true ∧ (framePipeline m v).sample =
    fmul y (routeGain v.note (framePipeline m v).voice.env.level (triggerLevel (trigger v.gate))) :=
  ⟨_, filtOut_inGuard _ _, rfl⟩

/-! ### Silence (R217 item 6) -/

/-- `+0.0` or `-0.0`. -/
def IsZero (x : F32) : Prop := x = 0 ∨ x = 0x80000000

theorem IsZero.isFinite {x : F32} (h : IsZero x) : isFinite x = true := by
  obtain rfl | rfl := h <;> decide

theorem IsZero.fMag {x : F32} (h : IsZero x) : fMag x = 0 := by
  obtain rfl | rfl := h <;> decide

theorem IsZero.fVal {x : F32} (h : IsZero x) : fVal x = 0 := by
  obtain rfl | rfl := h <;> decide

theorem isZero_packF (s : Bool) : IsZero (packF s 0) := by
  cases s
  · exact .inl rfl
  · exact .inr rfl

theorem fmul_isZero {a b : F32} (ha : isFinite a = true) (hb : IsZero b) : IsZero (fmul a b) := by
  have rounded : roundMag 0 (2 ^ 149) = 0 := by decide
  rw [fmul_finite a b ha hb.isFinite, hb.fMag, Nat.mul_zero, rounded]
  exact isZero_packF _

theorem fadd_isZero {a b : F32} (ha : IsZero a) (hb : IsZero b) : IsZero (fadd a b) := by
  rw [fadd, addWith_finite _ a b ha.isFinite hb.isFinite, ha.fVal, hb.fVal]
  exact isZero_packF _

/-- With the gate closed and the level 0 the gain is a zero. -/
theorem routeGain_closed_isZero (r : NoteRegs) (hvel : isFinite r.velAmp = true) (hdepth : isFinite r.ampDepth = true)
    (hrev : isFinite r.ampRev = true) : IsZero (routeGain r 0 (triggerLevel false)) :=
  fmul_isZero hvel (fadd_isZero (fmul_isZero hdepth (.inl rfl)) (fmul_isZero hrev (.inl rfl)))

theorem fKey_fabs (x : F32) : fKey (fabs x) = (x.toNat % 2 ^ 31 : Nat) := by
  have sign : fSign (fabs x) = false := by
    rw [fSign_eq, fabs_toNat, decide_eq_false_iff_not]
    omega
  rw [fKey, sign, fabs_toNat, Nat.mod_mod]
  rfl

/-- The guard passes no infinity and no NaN (R144). -/
theorem isFinite_of_inGuard {y : F32} (h : inGuard y = true) : isFinite y = true := by
  have nonneg : fle 0 (fabs y) = true := by
    obtain ⟨number, key⟩ : isNaN 0 = false ∧ fKey 0 = 0 := by decide
    rw [fle, number, isNaN_of_fle_left _ _ h, key, fKey_fabs]
    exact decide_eq_true (Int.natCast_nonneg (y.toNat % 2 ^ 31))
  rw [← isFinite_fabs]
  exact isFinite_of_fle _ 0 _ (by decide) (by decide) nonneg h

/-- With the gate closed the envelope stays idle through every frame. -/
theorem voiceAfter_closed_idle (m : MathUnit) (n : Nat) (v : Voice) (h : v.gate = 0 ∧ v.env.stage = .idle) :
    (voiceAfter m n v).gate = 0 ∧ (voiceAfter m n v).env.stage = .idle := by
  refine voiceAfter_induct m (fun v => v.gate = 0 ∧ v.env.stage = .idle) (fun v hv => ?_) n v h
  obtain ⟨gate, idle⟩ := hv
  rw [framePipeline_env_closed_idle m v gate idle]
  exact ⟨gate, idle⟩

/-- A frame with the gate closed and the envelope idle is silent. -/
theorem framePipeline_sample_isZero (m : MathUnit) (v : Voice) (gate : v.gate = 0) (idle : v.env.stage = .idle)
    (hvel : isFinite v.note.velAmp = true) (hdepth : isFinite v.note.ampDepth = true)
    (hrev : isFinite v.note.ampRev = true) : IsZero (framePipeline m v).sample := by
  have closed : trigger v.gate = false := by rw [gate]; rfl
  obtain ⟨y, hy, sample⟩ := framePipeline_sample m v
  rw [sample, framePipeline_env_closed_idle m v gate idle, closed]
  exact fmul_isZero (isFinite_of_inGuard hy) (routeGain_closed_isZero v.note hvel hdepth hrev)

/-- Settles O45: every frame of the block finds the gate closed, the envelope idle and the gain registers as they
were. -/
theorem silenceWhileIdle : Obligations.SilenceWhileIdle := by
  unfold Obligations.SilenceWhileIdle
  intro s t nf hs hcap gate idle hvel hdepth hrev h j hj
  obtain ⟨gate', idle'⟩ := voiceAfter_closed_idle s.cfg.math (j / 2) s.voice ⟨gate, idle⟩
  have note := (voiceAfter_keeps s.cfg.math (j / 2) s.voice).note
  rw [readWord_of_exec_render hs hcap h j hj, Option.some_inj, Option.some_inj]
  exact framePipeline_sample_isZero _ _ gate' idle' (note ▸ hvel) (note ▸ hdepth) (note ▸ hrev)

/-! ### The bound of every sample (R211, R144, R178) -/

/-- The bound the guard tests, said of the exact value. -/
theorem fVal_of_inGuard {y : F32} (h : inGuard y = true) : |fVal y| ≤ fVal 0x47800000 :=
  fVal_fabs y ▸ (fle_iff _ _ ((isFinite_fabs y).trans (isFinite_of_inGuard h)) (by decide)).mp h

/-- A gain in [0, 1] does not lead out of the guard's bound. -/
theorem fmul_inGuard (y g : F32) (hy : inGuard y = true) (hg : InRange g 0 0x3F800000) : inGuard (fmul y g) = true := by
  obtain ⟨fg, g0, g1⟩ := (inRange_iff g _ _ (by decide) (by decide)).mp hg
  have fy := isFinite_of_inGuard hy
  have v0 : fVal 0 = 0 := by decide
  have v1 : fVal 0x3F800000 = 2 ^ 149 := by decide
  rw [v0] at g0
  rw [v1] at g1
  have bound : |fVal y * fVal g| ≤ fVal 0x47800000 * 2 ^ 149 := by
    rw [abs_mul, abs_of_nonneg g0]
    exact mul_le_mul (fVal_of_inGuard hy) g1 g0 (by decide)
  obtain ⟨lower, upper⟩ := abs_le.mp bound
  rw [← neg_mul, ← fVal_fneg] at lower
  exact fle_fabs_of_inRange _ _ (by decide)
    ⟨le_fmul y g _ fy fg (by decide) lower, fmul_le y g _ fy fg (by decide) upper⟩

/-- Settles O46: each sample is a value within the guard's bound times a gain in [0, 1]. -/
theorem samplesBounded : Obligations.SamplesBounded := by
  unfold Obligations.SamplesBounded
  intro s t nf hs hcap henv hgain h j hj
  have frame := (envInRange_invariant s.cfg.math).frame
  have env : EnvInRange (voiceAfter s.cfg.math (j / 2) s.voice).env := voiceAfter_induct _ _ frame _ _ henv
  have note := (voiceAfter_keeps s.cfg.math (j / 2) s.voice).note
  obtain ⟨y, hy, sample⟩ := framePipeline_sample s.cfg.math (voiceAfter s.cfg.math (j / 2) s.voice)
  refine ⟨_, readWord_of_exec_render hs hcap h j hj, ?_⟩
  rw [sampleAt, sample]
  exact fmul_inGuard y _ hy (routeGain_unitRange _ _ _ (note ▸ hgain) (frame _ env).level)

/-! ### `RESET` (R213, R214) -/

/-- Settles O16: the lifecycle check, and the two values of the flag. -/
theorem resetRule : Obligations.ResetRule := by
  unfold Obligations.ResetRule
  intro s hf
  refine ⟨fun hl => whenReady_notReady .reset s _ hf hl, fun hl flag => ?_, fun hl flag => ?_⟩
  · exact (whenReady_usable .reset s _ hf hl).trans (by rw [flag]; rfl)
  · exact (whenReady_usable .reset s _ hf hl).trans (by rw [flag]; rfl)

/-! ### The frames of `INIT`, `TEARDOWN`, `RESET` and `RENDER` -/

/-- `INIT` uses no free register file, and writes the registers only where it ends in `READY` (R230, R231). -/
theorem execInit_frame (ch : Byte) (rate : Word) (s : State) :
    Answers (fun t => t.epoch = s.epoch ∧ (t.life ≠ .ready → t.voice = s.voice)) (execInit ch rate s) := by
  refine .whenRunning ?_
  cases s.life with
  | uninit =>
    exact .ite (.next ⟨rfl, fun _ => rfl⟩) (.ite (.next ⟨rfl, fun _ => rfl⟩) (.next ⟨rfl, fun h => absurd rfl h⟩))
  | ready => exact .next ⟨rfl, fun _ => rfl⟩
  | failed => exact .next ⟨rfl, fun _ => rfl⟩

/-- `TEARDOWN` raises no fault, and outside `READY` it does nothing (R235). -/
theorem execTeardown_frame (s : State) :
    Answers (fun t => t.fault = s.fault ∧ (s.life ≠ .ready → t = s)) (execTeardown s) := by
  refine .whenRunning ?_
  split
  case h_1 ready => exact .next ⟨rfl, fun h => absurd ready h⟩
  all_goals exact .next ⟨rfl, fun _ => rfl⟩

/-- From `v` to `v'` nothing changed but what `RESET` may write; with `clears` false it may not write the envelope and
the filter (R213, R214). -/
structure ResetKeeps (clears : Bool) (v v' : Voice) : Prop where
  p : v'.p = v.p
  note : v'.note = v.note
  env : v'.env = { v'.env with
    attInc := v.env.attInc, decInc := v.env.decInc, relInc := v.env.relInc, susLevel := v.env.susLevel }
  flt : v'.flt = { v.flt with z1 := v'.flt.z1, z2 := v'.flt.z2 }
  survives : clears = false → v'.env = v.env ∧ v'.flt = v.flt

theorem ResetKeeps.refl (clears : Bool) (v : Voice) : ResetKeeps clears v v :=
  ⟨rfl, rfl, rfl, rfl, fun _ => ⟨rfl, rfl⟩⟩

theorem execReset_frame (s : State) :
    Answers (fun t => t = { s with voice := t.voice, fault := t.fault } ∧
      ResetKeeps s.cfg.resetClearsVoice s.voice t.voice) (execReset s) := by
  refine .whenReady _ (fun _ => ⟨rfl, .refl _ _⟩) (.next ⟨rfl, ?_⟩)
  rw [State.withVoice_voice]
  cases s.cfg.resetClearsVoice with
  | true => exact ⟨rfl, rfl, rfl, rfl, nofun⟩
  | false => exact ⟨rfl, rfl, rfl, rfl, fun _ => ⟨rfl, rfl⟩⟩

theorem execRender_frame (nf : Word) (s : State) : Answers (RenderFrame nf.toNat s) (execRender nf s) :=
  .whenReady _ (.withFault _ s) (.ite (.raiseFault _ _ (.withFault _ s)) (.next (renderFrames_frame nf.toNat s)))

/-- Settles O51: the frames of the four commands; no command writes the model arguments or the stream, and only `RENDER`
writes `OUT`. -/
theorem lifecycleAndRenderFrame : Obligations.LifecycleAndRenderFrame := by
  unfold Obligations.LifecycleAndRenderFrame
  intro s t
  have bytes (i : Instr) (h : exec i s = .next t) (hi : i.opcode ≠ .render) (a : Nat) :
      readByte t.out a = readByte s.out a := by
    rw [(exec_writesOwned i s t h).out hi]
  refine ⟨fun ch rate h => ?init, fun h => ?teardown, fun h => ?reset, fun nf h => ?render⟩
  case init =>
    obtain ⟨epoch, voice⟩ := execInit_frame ch rate s t h
    exact ⟨exec_keeps_cfg _ s t h, exec_keeps_stream _ s t h, epoch, voice, bytes _ h nofun⟩
  case teardown =>
    obtain ⟨fault, idle⟩ := execTeardown_frame s t h
    exact ⟨(exec_writesOwned _ s t h).resp rfl, fault, exec_keeps_cfg _ s t h, exec_keeps_stream _ s t h, idle,
      bytes _ h nofun⟩
  case reset =>
    obtain ⟨only, p, note, env, flt, survives⟩ := execReset_frame s t h
    exact ⟨only, p, note, env, flt, survives, bytes _ h nofun⟩
  case render =>
    obtain ⟨only, keeps, above⟩ := execRender_frame nf s t h
    exact ⟨only, keeps.p, keeps.gate, keeps.note, keeps.shape, keeps.attInc, keeps.decInc, keeps.relInc,
      keeps.susLevel, above⟩

end Sys2Proof.Machine
end

section
/-! Proofs of the family 46_lifecycle_host.md. The legality table of R241: `INIT` and `TEARDOWN` by lifecycle state, and
the check before every other command; the failures of `INIT`, a new life after `TEARDOWN`, and the answers that stand
for "none". -/

namespace Sys2Proof.Machine

open Sys2Proof.Safety

section
variable (s : State) (ch : Byte) (rate : Word)

/-! ### `INIT` and `TEARDOWN` by lifecycle state (R230, R234, R235) -/

theorem exec_init_of_uninit (hf : s.fault = none) (hl : s.life = .uninit) :
    exec (.init ch rate) s = initUninit ch rate s :=
  (whenRunning_none s _ hf).trans (by rw [hl])

theorem exec_init_of_ready (hf : s.fault = none) (hl : s.life = .ready) :
    exec (.init ch rate) s = .next { s with fault := some ⟨.reinit, (Instr.init ch rate).word0⟩ } :=
  (whenRunning_none s _ hf).trans (by simp only [hl, raiseFault_eq])

theorem exec_init_of_failed (hf : s.fault = none) (hl : s.life = .failed) :
    exec (.init ch rate) s = .next { s with fault := some ⟨.notReady, (Instr.init ch rate).word0⟩ } :=
  (whenRunning_none s _ hf).trans (by simp only [hl, raiseFault_eq])

/-- What `TEARDOWN` leaves of `READY`: the registers are free (log 4). -/
def tornDown : State := ((s.withVoice (Config.unwritten s.epoch)).withLife .uninit).nextEpoch

theorem exec_teardown_of_ready (hf : s.fault = none) (hl : s.life = .ready) : exec .teardown s = .next (tornDown s) :=
  (whenRunning_none s _ hf).trans (by rw [hl]; rfl)

theorem exec_teardown_of_not_ready (hf : s.fault = none) (hl : s.life ≠ .ready) : exec .teardown s = .next s := by
  refine (whenRunning_none s _ hf).trans ?_
  split
  · next ready => exact absurd ready hl
  · rfl
  · rfl

/-- `INIT` in `UNINIT` raises no fault: a wrong rate or channel count is answered in `RESP` (R231). -/
theorem initUninit_faultFree (hf : s.fault = none) : ∃ t, initUninit ch rate s = .next t ∧ t.fault = none := by
  unfold initUninit
  split
  · exact ⟨_, rfl, hf⟩
  · split
    · exact ⟨_, rfl, hf⟩
    · exact ⟨_, rfl, hf⟩

end

theorem eq_init_of_opcode {i : Instr} (h : i.opcode = .init) : ∃ ch rate, i = .init ch rate := by
  cases i with
  | init ch rate => exact ⟨ch, rate, rfl⟩
  | _ => cases h

theorem eq_teardown_of_opcode {i : Instr} (h : i.opcode = .teardown) : i = .teardown := by
  cases i with
  | teardown => rfl
  | _ => cases h

/-! ### The check before every other command (R241) -/

/-- The outcome is a next state, and a fault recorded there is neither `F_NOT_READY` nor `F_REINIT`. -/
def RaisesNoLifecycleFault (k : Result) : Prop :=
  ∃ t, k = .next t ∧ ∀ r, t.fault = some r → r.code ≠ .notReady ∧ r.code ≠ .reinit

section
variable {s : State}

theorem RaisesNoLifecycleFault.next {t : State} (h : t.fault = none) : RaisesNoLifecycleFault (.next t) :=
  ⟨t, rfl, fun r hr => by rw [h] at hr; cases hr⟩

theorem RaisesNoLifecycleFault.raiseFault (code : FaultCode) (w0 : Word) (h : code ≠ .notReady ∧ code ≠ .reinit) :
    RaisesNoLifecycleFault (raiseFault code w0 s) :=
  ⟨_, rfl, fun r hr => by cases hr; exact h⟩

theorem RaisesNoLifecycleFault.ite {c : Prop} [Decidable c] {k l : Result} (hk : RaisesNoLifecycleFault k)
    (hl : RaisesNoLifecycleFault l) : RaisesNoLifecycleFault (if c then k else l) := by
  split
  · exact hk
  · exact hl

theorem RaisesNoLifecycleFault.withSlot (i : Instr) (a : Byte) {k : Fin 24 → Result}
    (hk : ∀ n, RaisesNoLifecycleFault (k n)) : RaisesNoLifecycleFault (withSlot i a s k) := by
  unfold Machine.withSlot
  split
  · exact .raiseFault _ _ ⟨nofun, nofun⟩
  · exact hk _

end

/-- Every command but `INIT` and `TEARDOWN` is its lifecycle check, and behind the check none of its codes is a
lifecycle code (R241, R261, R266). -/
theorem exec_eq_whenReady (i : Instr) (s : State) (hi : isLifecycle i = false) (hf : s.fault = none) :
    ∃ k, exec i s = whenReady i s k ∧ RaisesNoLifecycleFault k := by
  cases i with
  | init | teardown => cases hi
  | reset | resume | suspend | pitchBend | channelPressure | aftertouch | loadPreset | getPresetIndex | getPresetName =>
    exact ⟨_, rfl, .next hf⟩
  | setParam | getParam | getParamStr | getParamBmp => exact ⟨_, rfl, .withSlot _ _ fun _ => .next hf⟩
  | noteOn | noteOff => exact ⟨_, rfl, .ite (.next hf) (.raiseFault _ _ ⟨nofun, nofun⟩)⟩
  | allNoteOff => exact ⟨_, rfl, .next (by split <;> exact hf)⟩
  | render nf =>
    exact ⟨_, rfl, .ite (.raiseFault _ _ ⟨nofun, nofun⟩) (.next ((renderFrames_fault 0 nf.toNat s).trans hf))⟩

theorem exec_of_not_ready (i : Instr) (s : State) (hi : isLifecycle i = false) (hf : s.fault = none)
    (hl : s.life ≠ .ready) : exec i s = .next { s with fault := some ⟨.notReady, i.word0⟩ } := by
  obtain ⟨k, he, -⟩ := exec_eq_whenReady i s hi hf
  exact he.trans (whenReady_notReady i s k hf hl)

theorem exec_of_ready (i : Instr) (s : State) (hi : isLifecycle i = false) (hf : s.fault = none)
    (hl : s.life = .ready) : RaisesNoLifecycleFault (exec i s) := by
  obtain ⟨k, he, hk⟩ := exec_eq_whenReady i s hi hf
  rwa [he, whenReady_usable i s k hf hl]

/-- Settles O9: row by row, `INIT` and `TEARDOWN` by lifecycle state and the check of every other command. -/
theorem legalityTable : Obligations.LegalityTable := by
  unfold Obligations.LegalityTable
  intro i s hf
  refine ⟨fun hi hl => exec_of_not_ready i s hi hf hl, fun hi hl => ?initReady, fun hi hl => ?initFailed,
    fun hi hl => ?ready, fun hi hl => ?initUninit, fun hi => ?teardown⟩
  case initReady =>
    obtain ⟨ch, rate, rfl⟩ := eq_init_of_opcode hi
    exact exec_init_of_ready s ch rate hf hl
  case initFailed =>
    obtain ⟨ch, rate, rfl⟩ := eq_init_of_opcode hi
    exact exec_init_of_failed s ch rate hf hl
  case ready =>
    obtain ⟨t, he, codes⟩ := exec_of_ready i s hi hf hl
    exact ⟨t, he, fun h => (codes _ h).1 rfl, fun h => (codes _ h).2 rfl⟩
  case initUninit =>
    obtain ⟨ch, rate, rfl⟩ := eq_init_of_opcode hi
    rw [exec_init_of_uninit s ch rate hf hl]
    exact initUninit_faultFree s ch rate hf
  case teardown =>
    obtain rfl := eq_teardown_of_opcode hi
    by_cases hl : s.life = .ready
    · exact ⟨_, exec_teardown_of_ready s hf hl, hf, fun _ => rfl, fun hn => absurd hl hn⟩
    · exact ⟨s, exec_teardown_of_not_ready s hf hl, hf, fun h => absurd h hl, fun _ => rfl⟩

/-- Settles O13: the checks of R232 in their order. -/
theorem initFailures : Obligations.InitFailures := by
  unfold Obligations.InitFailures
  intro s ch rate hf hl
  rw [exec_init_of_uninit s ch rate hf hl, initUninit]
  refine ⟨fun hrate => ?_, fun hrate hch => ?_⟩
  · rw [if_pos hrate]
    rfl
  · rw [if_neg (not_not.mpr hrate), if_pos hch]
    rfl

/-! ### A new life after `TEARDOWN` (R235) -/

/-- Settles O14: what `TEARDOWN` leaves is uninitialised and fault-free, where the checks and `INIT` answer as before a
first `INIT`. -/
theorem teardownRule : Obligations.TeardownRule := by
  unfold Obligations.TeardownRule
  intro s hf
  refine ⟨fun hl => ⟨tornDown s, exec_teardown_of_ready s hf hl, rfl, fun i hi => ?checked, ?init⟩,
    exec_teardown_of_not_ready s hf⟩
  case checked => exact exec_of_not_ready i (tornDown s) hi hf nofun
  case init => exact ⟨_, exec_init_uninit (tornDown s) hf rfl, rfl⟩

/-- The second `INIT` loads the defaults over whatever `TEARDOWN` left. -/
theorem runAll_teardown_init (s : State) (hf : s.fault = none) (hl : s.life = .ready) :
    runAll [.teardown, .init 2 48000] s =
      .next ((((tornDown s).withVoice (loadDefaults s.cfg.math)).withLife .ready).withResp errNone) := by
  rw [runAll_cons_of_next (exec_teardown_of_ready s hf hl), runAll_cons_of_next (exec_init_uninit (tornDown s) hf rfl)]
  exact whenRunning_none _ _ hf

/-- Settles O15: both runs load the defaults, which depend on `EXP2` and `TAN` alone. -/
theorem teardownThenInitIsFresh : Obligations.TeardownThenInitIsFresh := by
  unfold Obligations.TeardownThenInitIsFresh
  rintro s s0 t0 ⟨hf, hl⟩ hf0 hl0 hm h0
  have run := runAll_teardown_init s hf hl
  rw [exec_init_uninit s0 hf0 hl0, hm] at h0
  generalize loadDefaults s.cfg.math = v at h0 run
  cases h0
  exact ⟨_, run, rfl, rfl, rfl, rfl⟩

/-! ### The answers that stand for "none" (R237 to R240) -/

/-- Settles O18: the lifecycle check, then for the parameter representations the index check, then the answer 0. -/
theorem nullAnswers : Obligations.NullAnswers := by
  unfold Obligations.NullAnswers
  intro s a v hf
  refine ⟨fun hl => ⟨?index, ?name, fun ha => ?inRange, fun ha => ?outOfRange⟩, fun hl i hi => ?notReady⟩
  case index => exact whenReady_usable .getPresetIndex s _ hf hl
  case name => exact whenReady_usable (.getPresetName a) s _ hf hl
  case inRange =>
    have slot : a.toNat < 24 := Nat.lt_succ_of_le ha
    exact ⟨(whenReady_usable (.getParamStr a v) s _ hf hl).trans (withSlot_lt _ a s _ slot),
      (whenReady_usable (.getParamBmp a v) s _ hf hl).trans (withSlot_lt _ a s _ slot)⟩
  case outOfRange =>
    have noSlot : ¬ a.toNat < 24 := Nat.not_lt.mpr ha
    exact ⟨(whenReady_usable (.getParamStr a v) s _ hf hl).trans (withSlot_ge _ a s _ noSlot),
      (whenReady_usable (.getParamBmp a v) s _ hf hl).trans (withSlot_ge _ a s _ noSlot)⟩
  case notReady =>
    have checked : ∀ i ∈ [Instr.getPresetIndex, .getPresetName a, .getParamStr a v, .getParamBmp a v],
        isLifecycle i = false := by simp [isLifecycle]
    exact exec_of_not_ready i s (checked i hi) hf hl

end Sys2Proof.Machine
end

section
/-! Proofs of the families 60_exceptions.md and 70_reset_and_hazards.md. The fault a command may record, the stop while a
record stands, the steps that run no command, what passes no time, and the run of the first `INIT`. -/

namespace Sys2Proof.Machine

open Sys2Proof.Safety

/-! ### The fault a command may record (R260, R261) -/

/-- Where `t` holds a fault record, it is the only change from `s`, and it is one that `i` may make. -/
def RecordsOwnFault (i : Instr) (s t : State) : Prop :=
  ∀ r, t.fault = some r → t = { s with fault := some r } ∧ r.word = i.word0 ∧ mayRaise r.code i = true

section
variable {i : Instr} {s : State}

theorem RecordsOwnFault.of_faultFree {t : State} (h : t.fault = none) : RecordsOwnFault i s t := by
  intro r hr
  rw [h] at hr
  cases hr

theorem raiseFault_recordsOwnFault {code : FaultCode} (h : mayRaise code i = true) :
    Answers (RecordsOwnFault i s) (raiseFault code i.word0 s) := by
  refine .next fun r hr => ?_
  cases hr
  exact ⟨rfl, rfl, h⟩

theorem whenReady_recordsOwnFault (hi : mayRaise .notReady i = true) {k : Result}
    (hk : Answers (RecordsOwnFault i s) k) : Answers (RecordsOwnFault i s) (whenReady i s k) :=
  .whenRunning (.ite hk (raiseFault_recordsOwnFault hi))

theorem withSlot_recordsOwnFault (hi : mayRaise .paramIndex i = true) (a : Byte) {k : Fin 24 → Result}
    (hk : ∀ n, Answers (RecordsOwnFault i s) (k n)) : Answers (RecordsOwnFault i s) (withSlot i a s k) := by
  unfold withSlot
  split
  · exact raiseFault_recordsOwnFault hi
  · exact hk _

end

section
variable (s : State) (hf : s.fault = none)
include hf

/-- The failures of `INIT` in `UNINIT` are answers; elsewhere it faults `F_REINIT` or `F_NOT_READY` (R261, R266). -/
theorem execInit_recordsOwnFault (ch : Byte) (rate : Word) :
    Answers (RecordsOwnFault (.init ch rate) s) (execInit ch rate s) := by
  refine .whenRunning ?_
  split
  · exact raiseFault_recordsOwnFault rfl
  · exact raiseFault_recordsOwnFault rfl
  · intro t ht
    obtain ⟨u, hu, free⟩ := initUninit_faultFree s ch rate hf
    cases ht.symm.trans hu
    exact .of_faultFree free

/-- `TEARDOWN` never faults (R235). -/
theorem execTeardown_recordsOwnFault : Answers (RecordsOwnFault .teardown s) (execTeardown s) := by
  refine .whenRunning ?_
  split <;> exact .next (.of_faultFree hf)

/-- Check by check, a command raises the codes its row of R260 allows. -/
theorem exec_recordsOwnFault (i : Instr) : Answers (RecordsOwnFault i s) (exec i s) := by
  cases i with
  | init ch rate => exact execInit_recordsOwnFault s hf ch rate
  | teardown => exact execTeardown_recordsOwnFault s hf
  | reset | resume | suspend | pitchBend | channelPressure | aftertouch | loadPreset | getPresetIndex | getPresetName =>
    exact whenReady_recordsOwnFault rfl (.next (.of_faultFree hf))
  | allNoteOff => exact whenReady_recordsOwnFault rfl (.next (.of_faultFree (by split <;> exact hf)))
  | setParam | getParam | getParamStr | getParamBmp =>
    exact whenReady_recordsOwnFault rfl (withSlot_recordsOwnFault rfl _ fun _ => .next (.of_faultFree hf))
  | noteOn | noteOff =>
    exact whenReady_recordsOwnFault rfl (.ite (.next (.of_faultFree hf)) (raiseFault_recordsOwnFault rfl))
  | render nf =>
    have rendered : (renderFrames 0 nf.toNat s).fault = none := (renderFrames_fault 0 nf.toNat s).trans hf
    exact whenReady_recordsOwnFault rfl (.ite (raiseFault_recordsOwnFault rfl) (.next (.of_faultFree rendered)))

end

/-- Settles O11: each check raises one fault, by writing the record alone. -/
theorem faultingCommandOnlyRecords : Obligations.FaultingCommandOnlyRecords := by
  unfold Obligations.FaultingCommandOnlyRecords
  intro i s t r hf h hr
  exact exec_recordsOwnFault s hf i t h r hr

/-! ### While a fault is recorded (R260, R268) -/

/-- Every command begins with the check for a recorded fault. -/
theorem exec_eq_whenRunning (i : Instr) (s : State) : ∃ k, exec i s = whenRunning s k := by
  cases i <;> exact ⟨_, rfl⟩

section
variable (s : State) (r : FaultRecord) (hf : s.fault = some r)
include hf

theorem step_of_fault : step s = .fault (.stopped r) := whenRunning_some s r _ hf

theorem exec_of_fault (i : Instr) : exec i s = .fault (.stopped r) := by
  obtain ⟨k, hk⟩ := exec_eq_whenRunning i s
  exact hk.trans (whenRunning_some s r k hf)

theorem runAll_of_fault (cmds : List Instr) : runAll cmds s = .fault (.stopped r) := by
  cases cmds with
  | nil => exact whenRunning_some s r _ hf
  | cons i rest => rw [runAll, exec_of_fault s r hf i]

theorem observe_of_fault (n : Nat) : observe n s = .faulted r := by
  cases n with
  | zero => rw [observe, hf]
  | succ n => rw [observe, step_of_fault s r hf]

end

/-- Settles O7: a step and every command check for the record first, so a run ends at its first one. -/
theorem recordedFaultStopsTheBlock : Obligations.RecordedFaultStopsTheBlock := by
  unfold Obligations.RecordedFaultStopsTheBlock
  intro s r hf
  exact ⟨step_of_fault s r hf, exec_of_fault s r hf, runAll_of_fault s r hf, observe_of_fault s r hf⟩

/-! ### Steps that run no command (R264, R279) -/

theorem decode_of_illegalWord (w0 : Word) (rest : List Byte) (h : IllegalWord w0) :
    decode (wordBytes w0 ++ rest) = .illegal w0 rest := by
  have noRow : Opcode.ofWord? w0 = none := (unselectedWordsAreTheIllegalWords w0).mpr h
  simp only [decode, takeWord_wordBytes, noRow]

theorem step_of_illegal (s : State) (w0 : Word) (rest : List Byte) (hf : s.fault = none)
    (hd : decode s.stream = .illegal w0 rest) :
    step s = .next { s with stream := rest, fault := some ⟨.illegal, w0⟩ } := by
  refine (whenRunning_none s _ hf).trans ?_
  rw [fetch, hd]
  rfl

theorem step_of_incomplete (s : State) (hf : s.fault = none) (hd : decode s.stream = .incomplete) :
    step s = .next s := by
  refine (whenRunning_none s _ hf).trans ?_
  rw [fetch, hd]

/-- Settles O6: the word selects no row, so the cycle takes it and records it, and the record stops the step after. -/
theorem illegalWordFaults : Obligations.IllegalWordFaults := by
  unfold Obligations.IllegalWordFaults
  intro s w0 rest hf hs hw
  have hd : decode s.stream = .illegal w0 rest := hs ▸ decode_of_illegalWord w0 rest hw
  exact ⟨step_of_illegal s w0 rest hf hd, step_of_fault _ _ rfl⟩

/-- Settles O8: the cycle waits. -/
theorem noCommandNoChange : Obligations.NoCommandNoChange := by
  unfold Obligations.NoCommandNoChange
  exact step_of_incomplete

/-! ### Operand faults (R262, R263, R265) -/

/-- The commands that may raise `F_PARAM_INDEX` check the index in their field `A` behind the lifecycle check. -/
theorem exec_eq_withSlot (i : Instr) (s : State) (hi : mayRaise .paramIndex i = true) :
    ∃ k, exec i s = whenReady i s (withSlot i i.opA s k) := by
  cases i with
  | setParam | getParam | getParamStr | getParamBmp => exact ⟨_, rfl⟩
  | _ => cases hi

section
variable (s : State) (hf : s.fault = none) (hl : s.life = .ready)
include hf hl

theorem exec_of_index_outOfRange (i : Instr) (hi : mayRaise .paramIndex i = true) (h : 23 < i.opA.toNat) :
    exec i s = .next { s with fault := some ⟨.paramIndex, i.word0⟩ } := by
  obtain ⟨k, hk⟩ := exec_eq_withSlot i s hi
  rw [hk, whenReady_usable i s _ hf hl, withSlot_ge i _ s k (by omega)]

/-- The frame count is checked before any word is written (R263). -/
theorem exec_render_overCapacity (nf : Word) (h : s.cfg.outCapFrames < nf.toNat) :
    exec (.render nf) s = .next { s with fault := some ⟨.buffer, (Instr.render nf).word0⟩ } :=
  (whenReady_usable (.render nf) s _ hf hl).trans (if_pos h)

end

/-- Settles O10: behind the lifecycle check, each command's check of its own operands. -/
theorem operandFaults : Obligations.OperandFaults := by
  unfold Obligations.OperandFaults
  rintro s a b v ⟨hf, hl⟩
  have index : ∀ i ∈ [Instr.setParam a v, .getParam a, .getParamStr a v, .getParamBmp a v],
      mayRaise .paramIndex i = true ∧ i.opA = a := by simp [mayRaise, Instr.opcode, Instr.opA]
  refine ⟨fun ha i hi => ?_, exec_render_overCapacity s hf hl v, exec_noteOn_outOfDomain a b s hf hl,
    exec_noteOff_outOfDomain a s hf hl⟩
  obtain ⟨raises, field⟩ := index i hi
  exact exec_of_index_outOfRange s hf hl i raises (field.symm ▸ ha)

/-! ### Time passes only in frames (R292) -/

/-- From `v` to `v'` no time has passed: the phase, the pulse width, the envelope's stage and level, and the filter
stand. -/
structure SignalHeld (v v' : Voice) : Prop where
  phase : v'.osc.phase = v.osc.phase
  pw : v'.osc.pw = v.osc.pw
  stage : v'.env.stage = v.env.stage
  level : v'.env.level = v.env.level
  flt : v'.flt = v.flt

theorem SignalHeld.refl (v : Voice) : SignalHeld v v := ⟨rfl, rfl, rfl, rfl, rfl⟩

theorem ParamFrame.signalHeld {i : Nat} {v v' : Voice} (h : ParamFrame i v v') : SignalHeld v v' :=
  ⟨h.phaseAndPw.1, h.phaseAndPw.2, h.env.stage, h.env.level, h.flt⟩

theorem NoteOnRegsOnly.signalHeld {s t : State} (h : NoteOnRegsOnly s t) : SignalHeld s.voice t.voice := by
  rw [NoteOnRegsOnly] at h
  rw [h]
  exact ⟨rfl, rfl, rfl, rfl, rfl⟩

theorem RespAndFaultOnly.signalHeld {s t : State} (h : RespAndFaultOnly s t) : SignalHeld s.voice t.voice := by
  rw [RespAndFaultOnly] at h
  rw [h]
  exact .refl _

/-- Settles O53: the frames of `SET_PARAM`, of the note commands and of the commands that at most answer hold the
signal registers. -/
theorem timePassesOnlyInFrames : Obligations.TimePassesOnlyInFrames := by
  unfold Obligations.TimePassesOnlyInFrames
  intro i s t hi hreset hrender h
  have held : SignalHeld s.voice t.voice := by
    cases i with
    | init | teardown => cases hi
    | reset => exact absurd rfl hreset
    | render => exact absurd rfl hrender
    | setParam a v => exact (exec_setParam_frame a v s t h).2.signalHeld
    | noteOn n vel => exact (execNoteOn_frame n vel s t h).signalHeld
    | noteOff n => exact (execNoteOff_frame n s t h).noteOnRegsOnly.signalHeld
    | allNoteOff => exact (execAllNoteOff_frame s t h).noteOnRegsOnly.signalHeld
    | resume | suspend | pitchBend | channelPressure | aftertouch | loadPreset =>
      exact (exec_noOp_respAndFaultOnly _ s rfl t h).signalHeld
    | getParam | getParamStr | getParamBmp | getPresetIndex | getPresetName =>
      exact (exec_answer_respAndFaultOnly _ s rfl (by nofun) t h).signalHeld
  obtain ⟨phase, pw, stage, level, flt⟩ := held
  exact ⟨phase, pw, stage, level, flt⟩

/-! ### The run of the first `INIT` (R246, R280) -/

/-- With no whole command left a run ends where it stands. -/
theorem observe_of_incomplete (n : Nat) (s : State) (hf : s.fault = none) (hd : decode s.stream = .incomplete) :
    observe n s = .final ⟨[], [], s⟩ := by
  induction n with
  | zero => rw [observe, hf]
  | succ n ih =>
    simp only [observe, step_of_incomplete s hf hd, ih, fetch, hd, RunEnd.after]

/-- The run of one command that raises no fault, from a state with nothing else delivered. -/
theorem runOf_encode (i : Instr) (s t : State) (hf : s.fault = none) (hs : s.stream = []) (h : exec i s = .next t)
    (ht : t.fault = none) : runOf (encode i) s = .final (Observation.after i t ⟨[], [], t⟩) := by
  obtain ⟨n, hn⟩ : ∃ n, (encode i).length = n + 1 := ⟨_, by rw [encode_eq]; rfl⟩
  have fetched : decode (s.withStream (encode i)).stream = .command i [] := by
    simpa using decodeOfEncode i []
  have ran : exec i ((s.withStream (encode i)).withStream []) = .next t := by
    rw [← h, ← hs]
    rfl
  have left : decode t.stream = .incomplete := by
    rw [exec_keeps_stream i s t h, hs]
    rfl
  rw [runOf, hn, observe_command n (s.withStream (encode i)) t i [] hf fetched ran, observe_of_incomplete n t ht left]
  rfl

theorem reset_outputInBounds : OutputInBounds State.reset where
  wf := rfl
  bound _ h := absurd rfl h

/-- Settles O60: `INIT` answers 0 and loads the defaults, which establish every invariant of the registers. -/
theorem resetAndFirstInit : Obligations.ResetAndFirstInit := by
  unfold Obligations.ResetAndFirstInit
  have init := exec_init_uninit State.reset rfl rfl
  have env := (envInRange_invariant .correctlyRounded).loadDefaults
  have osc := (oscInRange_invariant .correctlyRounded).loadDefaults
  have flt := (filterBounded_invariant .correctlyRounded).loadDefaults
  have gain := loadDefaults_gainInRange .correctlyRounded
  have resQ := resQ_invariant.loadDefaults
  have math : State.reset.cfg.math = .correctlyRounded := rfl
  rw [math] at init
  generalize loadDefaults .correctlyRounded = v at init env osc flt gain resQ
  exact ⟨⟨rfl, rfl, rfl⟩, reset_outputInBounds, _, init, runOf_encode _ _ _ rfl rfl init rfl, env, osc.1, osc.2, flt, gain,
    fun _ => resQ⟩

end Sys2Proof.Machine
end
